-- ==== Sys2Proof/Word.lean ====
section
/-! DEFINITION. The 32-bit word and its two integer readings (spec/00_scope.md R13, R17). -/

namespace Sys2Proof

/-- A register value, a data word, an address, a pc or an instruction word: 32 bits (R13, R17, R21, R27, R59).
Its unsigned reading `uval` is `BitVec.toNat`, its signed reading `sval` is `BitVec.toInt`, and `+`, `-` wrap (R17). -/
abbrev Word := BitVec 32

end Sys2Proof
end

