-- ==== Sys2Proof/Config.lean ====
section
/-! DEFINITION. The fixed values (spec/00_scope.md R13) and the named parameters (R14) of the block. -/

namespace Sys2Proof

/-- `RES_BASE`: the first resident address (R13). -/
abbrev resBase : Nat := 65536

/-- `RES_LAST`: the last resident address (R13). -/
abbrev resLast : Nat := 65660

/-- `RES_STEP`: the distance of two resident addresses (R13). -/
abbrev resStep : Nat := 4

/-- `RES_WORDS`: how many resident words there are (R13). -/
abbrev resWords : Nat := 32

/-- `SP_RESET`: the reset value of x2 (R13, R26). -/
abbrev spReset : Word := 380#32

/-- `PC_RESET`: the reset value of the pc (R13, R41). -/
abbrev pcReset : Word := 0#32

/-- The largest `N_PROG` (R14). -/
abbrev maxProgWords : Nat := 2 ^ 30

/-- `LW_UNMAPPED`: what LW does at an address that is in no memory map (R14, R91). -/
inductive LwUnmapped where
  /-- rd keeps its old value (the default). -/
  | keep
  /-- rd becomes 0. -/
  | zero
  /-- the run ends in FAULTED(UnmappedLoadError). -/
  | fault
deriving DecidableEq, Repr

/-- `J_IMM_DECODE`: which reading of the JAL immediate is used (R14, R69). -/
inductive JImmDecode where
  /-- the RV32I reading (the default). -/
  | standard
  /-- the source's concatenation taken at its word. -/
  | literal
deriving DecidableEq, Repr

/-- `TRACE_DECIMAL`: how the host renders a register in the decimal trace file (R14, R116).
The spec leaves it OPEN, so it is an argument of the rendering and no field below (log entry 8). -/
inductive TraceDecimal where
  | signed
  | unsigned
deriving DecidableEq, Repr

/-- What the host supplies at launch (R119): the program and the parameters a step depends on.
No step changes it. `N_PROG` is the program's length (R14, R34). -/
structure Config where
  /-- the read-only program: word i is at byte address 4·i of the instruction space (R34). -/
  prog : List Word
  lwUnmapped : LwUnmapped := .keep
  jImmDecode : JImmDecode := .standard
deriving DecidableEq, Repr

/-- `N_PROG`, the number of program words (R14). -/
def Config.nProg (c : Config) : Nat := c.prog.length

/-- `N_PROG` is in its range 0 .. 2^30 (R14). -/
def Config.wf (c : Config) : Bool := decide (c.nProg ≤ maxProgWords)

end Sys2Proof
end

