-- ==== Sys2Proof/Syntax.lean ====
section
/-! DEFINITION. The instructions: one constructor per row of spec/opcode_table.json, and what a decoder answers. -/

namespace Sys2Proof

/-- A register index, 0 to 31 (spec/10_state.md R22, spec/30_encoding.md R70). -/
abbrev RegId := Fin 32

/-- The 14 mnemonics (spec/00_scope.md R2). `imm` is the extended 32-bit immediate (R7, R66 to R69). -/
inductive Instr where
  /-- R84 -/
  | add (rd rs1 rs2 : RegId)
  /-- R85 -/
  | sub (rd rs1 rs2 : RegId)
  /-- R86 -/
  | slt (rd rs1 rs2 : RegId)
  /-- R87 -/
  | srl (rd rs1 rs2 : RegId)
  /-- R88 -/
  | or (rd rs1 rs2 : RegId)
  /-- R89 -/
  | and (rd rs1 rs2 : RegId)
  /-- R91 -/
  | lw (rd rs1 : RegId) (imm : Word)
  /-- R92 -/
  | addi (rd rs1 : RegId) (imm : Word)
  /-- R93 -/
  | jalr (rd rs1 : RegId) (imm : Word)
  /-- R94 -/
  | sw (rs1 rs2 : RegId) (imm : Word)
  /-- R97 -/
  | beq (rs1 rs2 : RegId) (imm : Word)
  /-- R98 -/
  | bne (rs1 rs2 : RegId) (imm : Word)
  /-- R99: a row of the table, but fatal when it is run. -/
  | blt (rs1 rs2 : RegId) (imm : Word)
  /-- R100 -/
  | jal (rd : RegId) (imm : Word)
deriving DecidableEq, Repr

/-- What a decoder answers for a word: an instruction, or the rejection by its name (R7, R72). -/
inductive Decoded where
  | instr (i : Instr)
  | unsupported
deriving DecidableEq, Repr

/-- The 13 instructions that R7 calls executable: all but BLT (R99). -/
def Instr.executable : Instr → Bool
  | .add .. | .sub .. | .slt .. | .srl .. | .or .. | .and .. => true
  | .lw .. | .addi .. | .jalr .. | .sw .. => true
  | .beq .. | .bne .. => true
  | .blt .. => false
  | .jal .. => true

end Sys2Proof
end

