-- ==== Sys2Proof/WellFormed.lean ====
section
/-! DEFINITION. Which instructions a word can carry: the ranges of the immediates (spec/30_encoding.md R66 to R69).
Register indices are in range by their type (R70). -/

namespace Sys2Proof

/-- The word's signed value is in the `n`-bit two's-complement range (R19). -/
def fitsSigned (n : Nat) (v : Word) : Bool :=
  decide (-(2 : Int) ^ (n - 1) ≤ v.toInt ∧ v.toInt < (2 : Int) ^ (n - 1))

/-- The word is a multiple of 2: bit 0 of a B or standard J immediate has no field (R64, R65). -/
def isEven (v : Word) : Bool := decide (v.toNat % 2 = 0)

/-- The JAL immediates of each reading: even in -1048576 .. 1048574, or 0 .. 1048575 (R69). -/
def jImmWf (m : JImmDecode) (imm : Word) : Bool :=
  match m with
  | .standard => fitsSigned 21 imm && isEven imm
  | .literal => decide (imm.toNat < 2 ^ 20)

/-- An instruction that some word of the opcode table decodes to. -/
def Instr.wf (m : JImmDecode) : Instr → Bool
  | .add .. | .sub .. | .slt .. | .srl .. | .or .. | .and .. => true
  | .lw _ _ imm | .addi _ _ imm | .jalr _ _ imm => fitsSigned 12 imm
  | .sw _ _ imm => fitsSigned 12 imm
  | .beq _ _ imm | .bne _ _ imm | .blt _ _ imm => fitsSigned 13 imm && isEven imm
  | .jal _ imm => jImmWf m imm

end Sys2Proof
end

