-- ==== Sys2Proof/Decode.lean ====
section
/-! DEFINITION. The instruction decoder and the encoder (spec/30_encoding.md), and the source's codec (spec/00_scope.md R19).
`a ++ b` of bit vectors is the spec's `a : b`, the left part more significant (R15). -/

namespace Sys2Proof

/-! ## Fields of a word (R60 to R65, R70) -/

/-- `inst[6:0]` -/
def opcodeOf (w : Word) : BitVec 7 := w.extractLsb' 0 7
/-- `inst[14:12]` -/
def funct3Of (w : Word) : BitVec 3 := w.extractLsb' 12 3
/-- `inst[31:25]` -/
def funct7Of (w : Word) : BitVec 7 := w.extractLsb' 25 7
/-- `rd = inst[11:7]` (R70) -/
def rdOf (w : Word) : RegId := (w.extractLsb' 7 5).toFin
/-- `rs1 = inst[19:15]` (R70) -/
def rs1Of (w : Word) : RegId := (w.extractLsb' 15 5).toFin
/-- `rs2 = inst[24:20]` (R70) -/
def rs2Of (w : Word) : RegId := (w.extractLsb' 20 5).toFin

/-! ## Immediates -/

/-- R66 -/
def immI (w : Word) : Word := (w.extractLsb' 20 12).signExtend 32

/-- R67 -/
def immS (w : Word) : Word := (w.extractLsb' 25 7 ++ w.extractLsb' 7 5).signExtend 32

/-- R68 -/
def immB (w : Word) : Word :=
  (w.extractLsb' 31 1 ++ w.extractLsb' 7 1 ++ w.extractLsb' 25 6 ++ w.extractLsb' 8 4 ++ 0#1).signExtend 32

/-- R69 -/
def immJ (m : JImmDecode) (w : Word) : Word :=
  match m with
  | .standard =>
    (w.extractLsb' 31 1 ++ w.extractLsb' 12 8 ++ w.extractLsb' 20 1 ++ w.extractLsb' 21 10 ++ 0#1).signExtend 32
  | .literal =>
    (w.extractLsb' 12 8 ++ w.extractLsb' 20 1 ++ w.extractLsb' 21 10 ++ w.extractLsb' 31 1).setWidth 32

/-! ## Opcode map (R71) -/

abbrev opR : BitVec 7 := 0b0110011#7
abbrev opLoad : BitVec 7 := 0b0000011#7
abbrev opImm : BitVec 7 := 0b0010011#7
abbrev opJalr : BitVec 7 := 0b1100111#7
abbrev opStore : BitVec 7 := 0b0100011#7
abbrev opBranch : BitVec 7 := 0b1100011#7
abbrev opJal : BitVec 7 := 0b1101111#7

/-! ## The decoder -/

/-- The R-type handler: the six (funct3, funct7) pairs (R71, R72). -/
def decodeR (w : Word) : Decoded :=
  let rd := rdOf w
  let rs1 := rs1Of w
  let rs2 := rs2Of w
  if funct7Of w = 0b0000000#7 then
    if funct3Of w = 0b000#3 then .instr (.add rd rs1 rs2)
    else if funct3Of w = 0b010#3 then .instr (.slt rd rs1 rs2)
    else if funct3Of w = 0b101#3 then .instr (.srl rd rs1 rs2)
    else if funct3Of w = 0b110#3 then .instr (.or rd rs1 rs2)
    else if funct3Of w = 0b111#3 then .instr (.and rd rs1 rs2)
    else .unsupported
  else if funct7Of w = 0b0100000#7 then
    if funct3Of w = 0b000#3 then .instr (.sub rd rs1 rs2) else .unsupported
  else .unsupported

/-- The B-type handler: BEQ, BNE and the row of BLT (R71). -/
def decodeB (w : Word) : Decoded :=
  if funct3Of w = 0b000#3 then .instr (.beq (rs1Of w) (rs2Of w) (immB w))
  else if funct3Of w = 0b001#3 then .instr (.bne (rs1Of w) (rs2Of w) (immB w))
  else if funct3Of w = 0b100#3 then .instr (.blt (rs1Of w) (rs2Of w) (immB w))
  else .unsupported

/-- Which row of the opcode table a word is, with its operands; a word of no row is rejected (R71, R72).
It names BLT's row, which R72's own function does not: see `decodeExecutable` (log entry 5). -/
def decode (m : JImmDecode) (w : Word) : Decoded :=
  if opcodeOf w = opR then decodeR w
  else if opcodeOf w = opLoad then
    if funct3Of w = 0b010#3 then .instr (.lw (rdOf w) (rs1Of w) (immI w)) else .unsupported
  else if opcodeOf w = opImm then
    if funct3Of w = 0b000#3 then .instr (.addi (rdOf w) (rs1Of w) (immI w)) else .unsupported
  else if opcodeOf w = opJalr then
    if funct3Of w = 0b000#3 then .instr (.jalr (rdOf w) (rs1Of w) (immI w)) else .unsupported
  else if opcodeOf w = opStore then
    if funct3Of w = 0b010#3 then .instr (.sw (rs1Of w) (rs2Of w) (immS w)) else .unsupported
  else if opcodeOf w = opBranch then decodeB w
  else if opcodeOf w = opJal then .instr (.jal (rdOf w) (immJ m w))
  else .unsupported

/-- R7's and R72's decoder: one of the 13 executable instructions, or Unsupported; BLT is Unsupported (R99). -/
def decodeExecutable (m : JImmDecode) (w : Word) : Decoded :=
  match decode m w with
  | .instr i => if i.executable then .instr i else .unsupported
  | .unsupported => .unsupported

/-! ## The encoder, from the same format tables -/

/-- A register's 5-bit index (R70). -/
def regBits (r : RegId) : BitVec 5 := BitVec.ofFin r

/-- R61 -/
def encodeR (f7 : BitVec 7) (f3 : BitVec 3) (rd rs1 rs2 : RegId) : Word :=
  f7 ++ regBits rs2 ++ regBits rs1 ++ f3 ++ regBits rd ++ opR

/-- R62 -/
def encodeI (op : BitVec 7) (f3 : BitVec 3) (rd rs1 : RegId) (imm : Word) : Word :=
  imm.extractLsb' 0 12 ++ regBits rs1 ++ f3 ++ regBits rd ++ op

/-- R63 -/
def encodeS (f3 : BitVec 3) (rs1 rs2 : RegId) (imm : Word) : Word :=
  imm.extractLsb' 5 7 ++ regBits rs2 ++ regBits rs1 ++ f3 ++ imm.extractLsb' 0 5 ++ opStore

/-- R64 -/
def encodeB (f3 : BitVec 3) (rs1 rs2 : RegId) (imm : Word) : Word :=
  imm.extractLsb' 12 1 ++ imm.extractLsb' 5 6 ++ regBits rs2 ++ regBits rs1 ++ f3 ++
    imm.extractLsb' 1 4 ++ imm.extractLsb' 11 1 ++ opBranch

/-- R65, with R69's literal reading undone under `literal`: there `inst[31]` is the immediate's bit 0 (log entry 9). -/
def encodeJ (m : JImmDecode) (rd : RegId) (imm : Word) : Word :=
  let top : BitVec 1 :=
    match m with
    | .standard => imm.extractLsb' 20 1
    | .literal => imm.extractLsb' 0 1
  top ++ imm.extractLsb' 1 10 ++ imm.extractLsb' 11 1 ++ imm.extractLsb' 12 8 ++ regBits rd ++ opJal

/-- The word of a well-formed instruction (R61 to R65, R71). -/
def encode (m : JImmDecode) : Instr → Word
  | .add rd rs1 rs2 => encodeR 0b0000000#7 0b000#3 rd rs1 rs2
  | .sub rd rs1 rs2 => encodeR 0b0100000#7 0b000#3 rd rs1 rs2
  | .slt rd rs1 rs2 => encodeR 0b0000000#7 0b010#3 rd rs1 rs2
  | .srl rd rs1 rs2 => encodeR 0b0000000#7 0b101#3 rd rs1 rs2
  | .or rd rs1 rs2 => encodeR 0b0000000#7 0b110#3 rd rs1 rs2
  | .and rd rs1 rs2 => encodeR 0b0000000#7 0b111#3 rd rs1 rs2
  | .lw rd rs1 imm => encodeI opLoad 0b010#3 rd rs1 imm
  | .addi rd rs1 imm => encodeI opImm 0b000#3 rd rs1 imm
  | .jalr rd rs1 imm => encodeI opJalr 0b000#3 rd rs1 imm
  | .sw rs1 rs2 imm => encodeS 0b010#3 rs1 rs2 imm
  | .beq rs1 rs2 imm => encodeB 0b000#3 rs1 rs2 imm
  | .bne rs1 rs2 imm => encodeB 0b001#3 rs1 rs2 imm
  | .blt rs1 rs2 imm => encodeB 0b100#3 rs1 rs2 imm
  | .jal rd imm => encodeJ m rd imm

/-! ## The rows of spec/opcode_table.json -/

/-- The row's "mask". -/
def Instr.rowMask : Instr → Word
  | .add .. | .sub .. | .slt .. | .srl .. | .or .. | .and .. => 0xFE00707F#32
  | .lw .. | .addi .. | .jalr .. | .sw .. | .beq .. | .bne .. | .blt .. => 0x0000707F#32
  | .jal .. => 0x0000007F#32

/-- The row's "match". -/
def Instr.rowMatch : Instr → Word
  | .add .. => 0x00000033#32
  | .sub .. => 0x40000033#32
  | .slt .. => 0x00002033#32
  | .srl .. => 0x00005033#32
  | .or .. => 0x00006033#32
  | .and .. => 0x00007033#32
  | .lw .. => 0x00002003#32
  | .addi .. => 0x00000013#32
  | .jalr .. => 0x00000067#32
  | .sw .. => 0x00002023#32
  | .beq .. => 0x00000063#32
  | .bne .. => 0x00001063#32
  | .blt .. => 0x00004063#32
  | .jal .. => 0x0000006F#32

/-! ## The source's codec (R19) -/

/-- `toTwosComplement(value, w)`, for values in the w-bit range (R19). -/
def toTwosComplement (value : Int) (w : Nat) : Int :=
  if 0 ≤ value then value else 2 ^ w + value

/-- `signExtend(bits, w)`: the signed integer of a w-bit pattern (R19). -/
def codecSignExtend (bits : Int) (w : Nat) : Int :=
  if bits < 2 ^ (w - 1) then bits else bits - 2 ^ w

/-! ## The host's reading of one table word -/

/-- The instruction the decoder reads from a word numbered as the opcode table numbers it (R15: bit 0 least significant),
under the default `J_IMM_DECODE = standard`. -/
def decodeTableWord (nbits w : Nat) : Option Instr :=
  match decode .standard (BitVec.ofNat 32 (w % 2 ^ nbits)) with
  | .instr i => some i
  | .unsupported => none

end Sys2Proof
end

