-- ==== Sys2Proof/Machine/Alu.lean ====
section
/-! DEFINITION. The ALU (spec/40_r_type_alu.md R82). -/

namespace Sys2Proof.Machine

/-- The six ALU operations (spec/00_scope.md R9). -/
inductive AluOp where
  | add
  | sub
  | slt
  | srl
  | or
  | and
deriving DecidableEq, Repr

/-- SRL's shift amount: the low four bits of the second operand (R82, R87). -/
def shiftAmount (b : Word) : Nat := b.toNat % 16

/-- The ALU: a pure function with no flag output (R82, R31). -/
def alu (op : AluOp) (a b : Word) : Word :=
  match op with
  | .add => a + b
  | .sub => a - b
  | .slt => if a.toInt < b.toInt then 1#32 else 0#32
  | .srl => a >>> shiftAmount b
  | .or => a ||| b
  | .and => a &&& b

end Sys2Proof.Machine
end

