-- ==== Sys2Proof/Machine/State.lean ====
section
/-! DEFINITION. The machine's state as plain data, its reset value, and the reasons a step can stop. -/

namespace Sys2Proof.Machine

/-- The data space (spec/10_state.md R35): 32 resident words, word k at address 65536 + 4k (spec/20_memory.md R43), and the
scratch map (R44) as a list of address and word, addresses strictly rising. One address holds one whole word (R50, log entry 6).
An address the list does not name reads as `none` (R47), so no entry can repeat what an unlisted address reads as. -/
structure Memory where
  res : Vector Word 32
  scratch : List (Nat × Word)
deriving DecidableEq, Repr

/-- The closed list of run-time faults with what each records beside the pc (spec/60_exceptions.md R102, R36). -/
inductive RunFault where
  /-- decode: the word is Unsupported. -/
  | unsupportedInstruction (word : Word)
  /-- fetch: the pc is the first address past the program. -/
  | missingHalt
  /-- fetch: the pc is no multiple of 4, or lies beyond the first address past the program. -/
  | pcOutOfBounds
  /-- LW under `LW_UNMAPPED = fault`: the address is in no map. -/
  | unmappedLoad (ea : Word)
deriving DecidableEq, Repr

/-- The run state (R36). -/
inductive RunState where
  | running
  | halted
  | faulted (reason : RunFault) (pc : Word)
deriving DecidableEq, Repr

/-- One trace record: the pc and the 32 registers after an instruction (R37, R114). -/
structure TraceRecord where
  pc : Word
  regs : Vector Word 32
deriving DecidableEq, Repr

/-- The machine state (spec/10_state.md, the record at its head), with the configuration that no step changes (log entry 1).
`trace` is in the order of the steps, the oldest record first (R37). -/
structure State where
  config : Config
  regs : Vector Word 32
  pc : Word
  mem : Memory
  run : RunState
  trace : List TraceRecord
deriving DecidableEq, Repr

/-- Why a step has no next state. The spec's own run-time faults are no such stops: they lead to a next state whose run
state is FAULTED (log entry 3). -/
inductive Fault where
  /-- Raised by `step` in a HALTED state: "No step is defined from either" (R40). Safe: nothing is claimed past the end. -/
  | stepAfterHalt
  /-- Raised by `step` in a FAULTED state: "No step is defined from either" (R40). Safe: nothing is claimed past the end. -/
  | stepAfterFault
deriving DecidableEq, Repr

/-- Why an instruction has no meaning in the model. -/
inductive Refusal where
  /-- Raised by a dispatch arm that has no meaning yet; no arm of this model raises it. Safe: nothing is claimed. -/
  | notModelled (mnemonic : String)
deriving DecidableEq, Repr

/-- The register file at reset: x2 = 380, all others 0 (R26). -/
def resetRegs : Vector Word 32 := (Vector.replicate 32 0#32).set 2 spReset

/-- The data space at reset: resident words 0, scratch empty (R41). -/
def resetMemory : Memory := { res := Vector.replicate 32 0#32, scratch := [] }

/-- The state at the start of a run with the program and parameters the host supplies (R41, R119, R120). -/
def State.launch (c : Config) : State :=
  { config := c, regs := resetRegs, pc := pcReset, mem := resetMemory, run := .running, trace := [] }

/-- The state after reset (R41), with no program loaded and the parameters' defaults (R14, log entry 1). -/
def State.reset : State := State.launch { prog := [] }

end Sys2Proof.Machine
end

