-- ==== Sys2Proof/Machine/Ops.lean ====
section
/-! DEFINITION. The shared operations: the register file's ports, the address translator and the data space, the program
fetch, and entering HALTED and FAULTED. -/

namespace Sys2Proof.Machine

/-! ## Register file (spec/10_state.md R21 to R25) -/

/-- A read port: x0 reads 0, any other register its stored value (R23, R24). -/
def State.reg (s : State) (r : RegId) : Word := if r = 0 then 0#32 else s.regs.get r

/-- The write port: a write to x0 is discarded (R23, R25). -/
def State.setReg (s : State) (r : RegId) (v : Word) : State :=
  if r = 0 then s else { s with regs := s.regs.set r.val v r.isLt }

/-- Set the next pc. -/
def State.setPc (s : State) (a : Word) : State := { s with pc := a }

/-- Replace the data space. -/
def State.setMem (s : State) (m : Memory) : State := { s with mem := m }

/-- Move the run state. -/
def State.setRun (s : State) (r : RunState) : State := { s with run := r }

/-! ## Address translator and data space (spec/20_memory.md R46 to R48) -/

/-- Where an effective address leads (R46). -/
inductive Location where
  | resident (k : Fin 32)
  | scratch (a : Word)
deriving DecidableEq, Repr

/-- The address is one of the 32 keys of the resident mapping (R46). -/
abbrev isResident (a : Nat) : Prop := resBase ≤ a ∧ a ≤ resLast ∧ a % resStep = 0

/-- The memory address translator; it never faults (R46). -/
def translateAddress (ea : Word) : Location :=
  if h : isResident ea.toNat then
    .resident ⟨(ea.toNat - resBase) / resStep, by
      simp only [isResident, resBase, resLast, resStep] at h ⊢; omega⟩
  else .scratch ea

/-- The scratch map's entry at a key, if a store has made one (R44, R47). -/
def scratchLookup : List (Nat × Word) → Nat → Option Word
  | [], _ => none
  | (k, v) :: rest, a => if k = a then some v else scratchLookup rest a

/-- Create or replace the entry at a key, keeping the keys strictly rising (R44, R48). -/
def scratchInsert : List (Nat × Word) → Nat → Word → List (Nat × Word)
  | [], a, v => [(a, v)]
  | (k, x) :: rest, a, v =>
    if a < k then (a, v) :: (k, x) :: rest
    else if a = k then (a, v) :: rest
    else (k, x) :: scratchInsert rest a v

/-- `MemRead(ea, 4)` (R47). -/
def Memory.read (m : Memory) (ea : Word) : Option Word :=
  match translateAddress ea with
  | .resident k => some (m.res.get k)
  | .scratch a => scratchLookup m.scratch a.toNat

/-- `MemWrite(ea, 4, v)`; it always succeeds (R48). -/
def Memory.write (m : Memory) (ea : Word) (v : Word) : Memory :=
  match translateAddress ea with
  | .resident k => { m with res := m.res.set k.val v k.isLt }
  | .scratch a => { m with scratch := scratchInsert m.scratch a.toNat v }

/-- A key the scratch map may hold: a 32-bit address that is not resident (R44). -/
abbrev scratchKeyOk (a : Nat) : Prop := a < 2 ^ 32 ∧ ¬ isResident a

/-- The canonical form of the data space: scratch keys strictly rising, each one a non-resident address (R44). -/
abbrev Memory.wf (m : Memory) : Prop :=
  (m.scratch.map Prod.fst).Pairwise (· < ·) ∧ ∀ e ∈ m.scratch, scratchKeyOk e.1

/-! ## Program fetch (spec/10_state.md R38) -/

/-- A fetch answers the word or the fault it raises. -/
inductive Fetched where
  | word (w : Word)
  | fault (f : RunFault)
deriving DecidableEq, Repr

/-- The program word at a pc: misaligned, then at the end, then beyond it, each a fault (R38, R103). -/
def fetch (prog : List Word) (pc : Word) : Fetched :=
  if pc.toNat % 4 ≠ 0 then .fault .pcOutOfBounds
  else if pc.toNat = 4 * prog.length then .fault .missingHalt
  else
    match prog[pc.toNat / 4]? with
    | some w => .word w
    | none => .fault .pcOutOfBounds

/-! ## Ending a run -/

/-- Take a run-time fault: the run state becomes FAULTED with the reason and the pc, and nothing else changes (R104).
The block has no trap entry beyond this and no return from it (R105, R106, R40). -/
def State.raise (f : RunFault) (s : State) : State := s.setRun (.faulted f s.pc)

/-- The run has ended in FAULTED. -/
def RunState.isFaulted : RunState → Bool
  | .faulted _ _ => true
  | .running => false
  | .halted => false

/-! ## The trace (spec/10_state.md R37, R39) -/

/-- Append the record of the pc and the registers as they now stand. -/
def State.record (s : State) : State := { s with trace := s.trace ++ [{ pc := s.pc, regs := s.regs }] }

/-- What a step adds after its instruction: a record of a completed instruction, none of a faulting one (R39, R104, R114). -/
def State.complete (s : State) : State := if s.run.isFaulted then s else s.record

end Sys2Proof.Machine
end

