-- ==== Sys2Proof/Machine/Operands.lean ====
section
/-! DEFINITION. The operand forms: the one addressing mode of LW and SW, and the next-pc forms of the pc sequencer. -/

namespace Sys2Proof.Machine

/-- Base plus signed displacement, modulo 2^32; the ALU's ADD computes it (spec/20_memory.md R45, spec/00_scope.md R9). -/
def effectiveAddress (s : State) (rs1 : RegId) (imm : Word) : Word := alu .add (s.reg rs1) imm

/-- The sequential next pc, and the link value of JALR and JAL (spec/10_state.md R28, R29). -/
def State.pcNext (s : State) : Word := s.pc + 4#32

/-- The pc-relative target of BEQ, BNE and JAL (R28, R29, R101). -/
def pcRelative (s : State) (imm : Word) : Word := s.pc + imm

/-- JALR's target; its bit 0 is kept (spec/41_i_type.md R93). -/
def registerTarget (s : State) (rs1 : RegId) (imm : Word) : Word := alu .add (s.reg rs1) imm

/-- Complete with the sequential next pc. -/
def State.advance (s : State) : State := s.setPc s.pcNext

end Sys2Proof.Machine
end

