-- ==== Sys2Proof/Machine/Flags.lean ====
section
/-! DEFINITION. The branch comparator and the block's only flag, the halt flag, which exists within one step only
(spec/43_b_type.md R95, R96, spec/10_state.md R31). -/

namespace Sys2Proof.Machine

/-- The comparator's answer; `halt` is the raised halt flag (spec/00_scope.md R11). -/
inductive Comparison where
  | notTaken
  | taken
  | halt
deriving DecidableEq, Repr

/-- The two executable branches, funct3 000 and 001 (R95). -/
inductive BranchOp where
  | beq
  | bne
deriving DecidableEq, Repr

/-- The branch comparator: it compares values, and only BEQ with equal values and immediate 0 raises the halt flag (R95). -/
def branchCompare (op : BranchOp) (a b imm : Word) : Comparison :=
  match op with
  | .beq => if a = b ∧ imm = 0#32 then .halt else if a = b then .taken else .notTaken
  | .bne => if a ≠ b then .taken else .notTaken

/-- The pc and the run state that follow a comparison (R28, R96, R97, R98). -/
def State.branch (s : State) (c : Comparison) (imm : Word) : State :=
  match c with
  | .notTaken => s.advance
  | .taken => s.setPc (pcRelative s imm)
  | .halt => s.advance.setRun .halted

end Sys2Proof.Machine
end

