-- ==== Sys2Proof/Machine/BType.lean ====
section
/-! DEFINITION. The B-type instructions BEQ, BNE and BLT (spec/43_b_type.md R97 to R99). -/

namespace Sys2Proof.Machine

/-- BEQ, which carries the halt sentinel (R97, R96). -/
def execBeq (rs1 rs2 : RegId) (imm : Word) (s : State) : Host.Outcome State Fault Refusal :=
  .next (s.branch (branchCompare .beq (s.reg rs1) (s.reg rs2) imm) imm)

/-- BNE (R98) -/
def execBne (rs1 rs2 : RegId) (imm : Word) (s : State) : Host.Outcome State Fault Refusal :=
  .next (s.branch (branchCompare .bne (s.reg rs1) (s.reg rs2) imm) imm)

/-- BLT: always UnsupportedInstructionError(pc, w), where w is the instruction's own word (R99, R102, log entry 5).
A B-type word does not depend on `J_IMM_DECODE`. -/
def execBlt (rs1 rs2 : RegId) (imm : Word) (s : State) : Host.Outcome State Fault Refusal :=
  .next (s.raise (.unsupportedInstruction (encode .standard (.blt rs1 rs2 imm))))

end Sys2Proof.Machine
end

