-- ==== Sys2Proof/Machine/IType.lean ====
section
/-! DEFINITION. The three I-type instructions LW, ADDI and JALR (spec/41_i_type.md R91 to R93). -/

namespace Sys2Proof.Machine

/-- LW at an address that is in no map, by the parameter `LW_UNMAPPED` (R91, R14). -/
def loadUnmapped (rd : RegId) (ea : Word) (s : State) : State :=
  match s.config.lwUnmapped with
  | .keep => s.advance
  | .zero => (s.setReg rd 0#32).advance
  | .fault => s.raise (.unmappedLoad ea)

/-- LW (R91) -/
def execLw (rd rs1 : RegId) (imm : Word) (s : State) : Host.Outcome State Fault Refusal :=
  match s.mem.read (effectiveAddress s rs1 imm) with
  | some v => .next (s.setReg rd v).advance
  | none => .next (loadUnmapped rd (effectiveAddress s rs1 imm) s)

/-- ADDI (R92) -/
def execAddi (rd rs1 : RegId) (imm : Word) (s : State) : Host.Outcome State Fault Refusal :=
  .next (s.setReg rd (alu .add (s.reg rs1) imm)).advance

/-- JALR: the target is read before the link is written (R93, R18). -/
def execJalr (rd rs1 : RegId) (imm : Word) (s : State) : Host.Outcome State Fault Refusal :=
  .next ((s.setReg rd s.pcNext).setPc (registerTarget s rs1 imm))

end Sys2Proof.Machine
end

