-- ==== Sys2Proof/Machine/JType.lean ====
section
/-! DEFINITION. The J-type instruction JAL (spec/44_j_type.md R100). -/

namespace Sys2Proof.Machine

/-- JAL: link pc + 4, jump to pc + imm (R100). -/
def execJal (rd : RegId) (imm : Word) (s : State) : Host.Outcome State Fault Refusal :=
  .next ((s.setReg rd s.pcNext).setPc (pcRelative s imm))

end Sys2Proof.Machine
end

