-- ==== Sys2Proof/Machine/RType.lean ====
section
/-! DEFINITION. The six R-type instructions (spec/40_r_type_alu.md R83 to R89). -/

namespace Sys2Proof.Machine

/-- `exec_R`: both operands are read before the write (R83, R18). -/
def execRType (op : AluOp) (rd rs1 rs2 : RegId) (s : State) : State :=
  (s.setReg rd (alu op (s.reg rs1) (s.reg rs2))).advance

/-- ADD (R84) -/
def execAdd (rd rs1 rs2 : RegId) (s : State) : Host.Outcome State Fault Refusal :=
  .next (execRType .add rd rs1 rs2 s)

/-- SUB (R85) -/
def execSub (rd rs1 rs2 : RegId) (s : State) : Host.Outcome State Fault Refusal :=
  .next (execRType .sub rd rs1 rs2 s)

/-- SLT (R86) -/
def execSlt (rd rs1 rs2 : RegId) (s : State) : Host.Outcome State Fault Refusal :=
  .next (execRType .slt rd rs1 rs2 s)

/-- SRL (R87) -/
def execSrl (rd rs1 rs2 : RegId) (s : State) : Host.Outcome State Fault Refusal :=
  .next (execRType .srl rd rs1 rs2 s)

/-- OR (R88) -/
def execOr (rd rs1 rs2 : RegId) (s : State) : Host.Outcome State Fault Refusal :=
  .next (execRType .or rd rs1 rs2 s)

/-- AND (R89) -/
def execAnd (rd rs1 rs2 : RegId) (s : State) : Host.Outcome State Fault Refusal :=
  .next (execRType .and rd rs1 rs2 s)

end Sys2Proof.Machine
end

