-- ==== Sys2Proof/Machine/SType.lean ====
section
/-! DEFINITION. The one store instruction SW (spec/42_s_type.md R94). -/

namespace Sys2Proof.Machine

/-- SW: every address is writable (R94, R48). -/
def execSw (rs1 rs2 : RegId) (imm : Word) (s : State) : Host.Outcome State Fault Refusal :=
  .next (s.setMem (s.mem.write (effectiveAddress s rs1 imm) (s.reg rs2))).advance

end Sys2Proof.Machine
end

