-- ==== Sys2Proof/Machine/Cycle.lean ====
section
/-! DEFINITION. What a step does with a fetched word: decode, execute, record (spec/10_state.md R39). -/

namespace Sys2Proof.Machine

/-- What the step makes of an executed instruction: the next state with its trace record (R39). -/
def finish (o : Host.Outcome State Fault Refusal) : Host.Outcome State Fault Refusal :=
  match o with
  | .next t => .next t.complete
  | .fault f => .fault f
  | .refused r => .refused r

/-- Decode a fetched word and run it, or raise UnsupportedInstructionError with the word (R39, R72). -/
def stepWord (w : Word) (s : State) : Host.Outcome State Fault Refusal :=
  match decode s.config.jImmDecode w with
  | .instr i => finish (exec i s)
  | .unsupported => .next (s.raise (.unsupportedInstruction w))

end Sys2Proof.Machine
end

