-- ==== Sys2Proof/Machine/Load.lean ====
section
/-! DEFINITION. Placing a word in the program, for the host's load of one instruction (log entries 2 and 10). -/

namespace Sys2Proof.Machine

/-- The program with a word at an index; a gap before it is filled with the all-zeros word, which is Unsupported (R73). -/
def placeWord : List Word → Nat → Word → List Word
  | [], 0, w => [w]
  | [], n + 1, w => 0#32 :: placeWord [] n w
  | _ :: rest, 0, w => w :: rest
  | x :: rest, n + 1, w => x :: placeWord rest n w

/-- The multiple of 4 at or below a pc: the address whose word index is pc / 4. -/
def alignedPc (pc : Word) : Word := BitVec.ofNat 32 (4 * (pc.toNat / 4))

end Sys2Proof.Machine
end

