-- ==== Sys2Proof/Machine/Step.lean ====
section
/-! DEFINITION. One atomic, untimed step: fetch, decode, execute, record (spec/10_state.md R39). -/

namespace Sys2Proof.Machine

/-- One step; it is defined only while the run state is RUNNING (R39, R40, log entry 4). -/
def step (s : State) : Host.Outcome State Fault Refusal :=
  match s.run with
  | .running =>
    match fetch s.config.prog s.pc with
    | .word w => stepWord w s
    | .fault f => .next (s.raise f)
  | .halted => .fault .stepAfterHalt
  | .faulted _ _ => .fault .stepAfterFault

/-- The state with one instruction word placed where the next step fetches (log entries 2 and 10). -/
def State.withFetchWord (s : State) (nbits w : Nat) : State :=
  { s with
    run := .running
    pc := alignedPc s.pc
    config := { s.config with prog := placeWord s.config.prog (s.pc.toNat / 4) (BitVec.ofNat 32 (w % 2 ^ nbits)) } }

end Sys2Proof.Machine
end

