-- ==== Sys2Proof/Machine/Observation.lean ====
section
/-! DEFINITION. What the host receives of a run: the trace, the resident dump after a halt, the fault record, or an
infinite trace
(spec/60_exceptions.md R114 to R116, R118). The textual layout of the files is outside the block (spec/00_scope.md R5 (e)). -/

namespace Sys2Proof.Machine

/-- The 32 pairs of resident address and word, in ascending address order (R115). -/
def Memory.residentPairs (m : Memory) : List (Nat × Word) :=
  (List.range resWords).zipWith (fun k v => (resBase + resStep * k, v)) m.res.toList

/-- The memory dump: it comes after a halt and only then (R115). -/
def residentDump (s : State) : Option (List (Nat × Word)) :=
  match s.run with
  | .halted => some s.mem.residentPairs
  | .running => none
  | .faulted _ _ => none

/-- What the host has of a run that has ended: the first two of R118's three observations. -/
inductive Observation where
  | halted (trace : List TraceRecord) (dump : List (Nat × Word))
  | faulted (reason : RunFault) (pc : Word) (trace : List TraceRecord)
deriving DecidableEq, Repr

/-- The observation that a state of an ended run gives; a RUNNING state gives none yet (R118, log entry 17). -/
def observe (s : State) : Option Observation :=
  match s.run with
  | .running => none
  | .halted => some (.halted s.trace s.mem.residentPairs)
  | .faulted f pc => some (.faulted f pc s.trace)

/-- The observation of a run, one of R118's three: that of its end, or divergence with an infinite trace, whose record `n`
is the one of step `n + 1`. -/
inductive RunObservation where
  | ended (o : Observation)
  | divergence (trace : Nat → TraceRecord)

/-- `k` steps of the run that a launch starts (R118, R41). -/
def runOf (c : Config) (k : Nat) : Host.Outcome State Fault Refusal := Host.Core.run Sys2Proof.core k (State.launch c)

/-- What the host observes of the run that a launch starts (R118): the observation of the state that some number of steps
ends it in; or, where every number of steps leaves it RUNNING, the infinite trace whose first `k` records are the trace
after `k` steps. -/
def RunObserves (c : Config) : RunObservation → Prop
  | .ended o => ∃ k s, runOf c k = .next s ∧ observe s = some o
  | .divergence trace => ∀ k, ∃ s, runOf c k = .next s ∧ s.run = .running ∧ s.trace = (List.range k).map trace

/-- A word as the 32 binary characters of the primary file, most significant bit first (R116, R59). -/
def binaryChars (w : Word) : List Char :=
  (List.range 32).map fun i => if w.getLsbD (31 - i) then '1' else '0'

/-- The integer that the decimal file prints for a register, by the OPEN parameter `TRACE_DECIMAL` (R116, log entry 8). -/
def decimalValue (m : TraceDecimal) (w : Word) : Int :=
  match m with
  | .signed => w.toInt
  | .unsigned => w.toNat

/-- The fields of one record in the primary file: the pc, then the 32 registers (R116). -/
def TraceRecord.binaryFields (r : TraceRecord) : List (List Char) := binaryChars r.pc :: r.regs.toList.map binaryChars

/-- The values of one record in the decimal file; the pc is a non-negative integer (R116, R27). -/
def TraceRecord.decimalFields (m : TraceDecimal) (r : TraceRecord) : List Int :=
  (r.pc.toNat : Int) :: r.regs.toList.map (decimalValue m)

end Sys2Proof.Machine
end

