-- ==== Sys2Proof/Safety.lean ====
section
/-! DEFINITION. The vocabulary of claims about runs: how a run can end, which states a run reaches, and the invariant. -/

namespace Sys2Proof.Machine

/-- The run has not ended in FAULTED: the block's notion of a run without an error (spec/60_exceptions.md R104). -/
def State.faultFree (s : State) : Prop := s.run.isFaulted = false

/-- The states of the run that a launch starts (spec/60_exceptions.md R118, spec/10_state.md R41). -/
inductive Reachable (c : Config) : State → Prop where
  | launch : Reachable c (State.launch c)
  | step {s t : State} : Reachable c s → Sys2Proof.Machine.step s = .next t → Reachable c t

/-- What holds in every state of a run:
the stored x0 is 0 (spec/10_state.md R23), in the trace as well (R37);
the data space is in its canonical form, scratch keys never resident (spec/20_memory.md R44);
the program is no longer than 2^30 words (spec/00_scope.md R14);
the last record is the present pc and registers (R39, and R104: a faulting step changes neither);
FAULTED names the present pc (R104); HALTED comes with at least one record (spec/43_b_type.md R96). -/
structure State.Inv (s : State) : Prop where
  x0_zero : s.regs.get 0 = 0#32
  trace_x0_zero : ∀ r ∈ s.trace, r.regs.get 0 = 0#32
  mem_wf : s.mem.wf
  config_wf : s.config.wf = true
  last_record : ∀ r, s.trace.getLast? = some r → r = { pc := s.pc, regs := s.regs }
  faulted_pc : ∀ f p, s.run = .faulted f p → p = s.pc
  halted_recorded : s.run = .halted → s.trace ≠ []

end Sys2Proof.Machine
end

