-- ==== Sys2Proof/Certificates/Slice0/Obligations.lean ====
section
/-! DEFINITION. The statements for the provers, from the spec's numbered rules, and the few words they are written in.
Values are said in plain integer arithmetic wherever the rule says them so. -/

namespace Sys2Proof.Claims

open Sys2Proof.Machine

/-! ## Words of the statements -/

/-- `w[hi:lo]` as a number (R15). -/
def field (w : Word) (hi lo : Nat) : Nat := w.toNat / 2 ^ lo % 2 ^ (hi - lo + 1)

/-- `sval` of an n-bit pattern (R17, R19). -/
def signedOf (n v : Nat) : Int := if v < 2 ^ (n - 1) then v else (v : Int) - 2 ^ n

/-- The number `inst[31:25] : inst[11:7]` (R67). -/
def patternS (w : Word) : Nat := field w 31 25 * 2 ^ 5 + field w 11 7

/-- The number `inst[31] : inst[7] : inst[30:25] : inst[11:8] : 0` (R68). -/
def patternB (w : Word) : Nat :=
  field w 31 31 * 2 ^ 12 + field w 7 7 * 2 ^ 11 + field w 30 25 * 2 ^ 5 + field w 11 8 * 2

/-- The number `inst[31] : inst[19:12] : inst[20] : inst[30:21] : 0` (R69, standard). -/
def patternJ (w : Word) : Nat :=
  field w 31 31 * 2 ^ 20 + field w 19 12 * 2 ^ 12 + field w 20 20 * 2 ^ 11 + field w 30 21 * 2

/-- The number `inst[19:12] : inst[20] : inst[30:21] : inst[31]` (R69, literal). -/
def patternJLiteral (w : Word) : Nat :=
  field w 19 12 * 2 ^ 12 + field w 20 20 * 2 ^ 11 + field w 30 21 * 2 + field w 31 31

/-- `rd` receives `v` unless it is x0; every other stored register, x0 included, is as before (R23, R25). -/
def WritesOnly (s t : State) (rd : RegId) (v : Word) : Prop :=
  ∀ r, t.regs.get r = if r = rd ∧ rd ≠ 0 then v else s.regs.get r

/-- No stored register changes. -/
def KeepsRegisters (s t : State) : Prop := ∀ r, t.regs.get r = s.regs.get r

/-- The data space is as before, read at any address and as data. -/
def KeepsMemory (s t : State) : Prop := (∀ a, t.mem.read a = s.mem.read a) ∧ t.mem = s.mem

/-- The run state, the trace and the configuration are as before. -/
def KeepsRun (s t : State) : Prop := t.run = s.run ∧ t.trace = s.trace ∧ t.config = s.config

/-- The next pc is pc + 4 modulo 2^32 (R28, R29). -/
def PcAdvances (s t : State) : Prop := t.pc.toNat = (s.pc.toNat + 4) % 2 ^ 32

/-- The next pc is pc plus a signed offset modulo 2^32 (R28, R29). -/
def JumpsBy (s t : State) (imm : Word) : Prop := (t.pc.toNat : Int) = ((s.pc.toNat : Int) + imm.toInt) % 2 ^ 32

/-- `s` with nothing changed but the run state, which is FAULTED at the present pc (R104). -/
def faultedAt (s : State) (f : RunFault) : State := { s with run := .faulted f s.pc }

/-- `s` completed by its trace record (R39, R114). -/
def recorded (s : State) : State := { s with trace := s.trace ++ [{ pc := s.pc, regs := s.regs }] }

/-- The program word the fetch reads at the pc: the pc is a multiple of 4 and names a word of the program (R38). -/
def Fetches (s : State) (w : Word) : Prop := s.pc.toNat % 4 = 0 ∧ s.config.prog[s.pc.toNat / 4]? = some w

/-- Every word of an R-type row decodes to its instruction with the operands of R61 and R70. -/
def RowR (pattern : Word) (make : RegId → RegId → RegId → Instr) : Prop :=
  ∀ m w, w &&& 0xFE00707F#32 = pattern →
    ∃ rd rs1 rs2, decodeExecutable m w = .instr (make rd rs1 rs2) ∧
      rd.val = field w 11 7 ∧ rs1.val = field w 19 15 ∧ rs2.val = field w 24 20

/-- The same for an I-type row (R62, R66). -/
def RowI (pattern : Word) (make : RegId → RegId → Word → Instr) : Prop :=
  ∀ m w, w &&& 0x0000707F#32 = pattern →
    ∃ rd rs1 imm, decodeExecutable m w = .instr (make rd rs1 imm) ∧
      rd.val = field w 11 7 ∧ rs1.val = field w 19 15 ∧ imm.toInt = signedOf 12 (field w 31 20)

/-- The same for a B-type row (R64, R68). -/
def RowB (pattern : Word) (make : RegId → RegId → Word → Instr) : Prop :=
  ∀ m w, w &&& 0x0000707F#32 = pattern →
    ∃ rs1 rs2 imm, decodeExecutable m w = .instr (make rs1 rs2 imm) ∧
      rs1.val = field w 19 15 ∧ rs2.val = field w 24 20 ∧ imm.toInt = signedOf 13 (patternB w)

/-- An R-type instruction completes on every state, with the result `f` of its two operands as they were before the write. -/
def ExecutesR (make : RegId → RegId → RegId → Instr) (f : Word → Word → Int) : Prop :=
  ∀ rd rs1 rs2 (s : State), ∃ t, exec (make rd rs1 rs2) s = .next t ∧
    WritesOnly s t rd (BitVec.ofInt 32 (f (s.reg rs1) (s.reg rs2))) ∧
    PcAdvances s t ∧ KeepsMemory s t ∧ KeepsRun s t

/-- The 13 executable rows of the opcode table as (mask, match). -/
def executableRows : List (Word × Word) :=
  [(0xFE00707F#32, 0x00000033#32), (0xFE00707F#32, 0x40000033#32), (0xFE00707F#32, 0x00002033#32),
   (0xFE00707F#32, 0x00005033#32), (0xFE00707F#32, 0x00006033#32), (0xFE00707F#32, 0x00007033#32),
   (0x0000707F#32, 0x00002003#32), (0x0000707F#32, 0x00000013#32), (0x0000707F#32, 0x00000067#32),
   (0x0000707F#32, 0x00002023#32), (0x0000707F#32, 0x00000063#32), (0x0000707F#32, 0x00001063#32),
   (0x0000007F#32, 0x0000006F#32)]

/-- The word fits one of the 13 executable rows. -/
def OnTable (w : Word) : Prop := ∃ row ∈ executableRows, w &&& row.1 = row.2

/-- The registers an instruction reads (R24). -/
def sources : Instr → List RegId
  | .add _ a b | .sub _ a b | .slt _ a b | .srl _ a b | .or _ a b | .and _ a b => [a, b]
  | .lw _ a _ | .addi _ a _ | .jalr _ a _ => [a]
  | .sw a b _ | .beq a b _ | .bne a b _ => [a, b]
  | .blt .. => []
  | .jal .. => []

/-- The register an instruction's rd field names, if it has one (R25). -/
def destination : Instr → Option RegId
  | .add d _ _ | .sub d _ _ | .slt d _ _ | .srl d _ _ | .or d _ _ | .and d _ _ => some d
  | .lw d _ _ | .addi d _ _ | .jalr d _ _ | .jal d _ => some d
  | .sw .. | .beq .. | .bne .. | .blt .. => none

/-- The pc sequencer's table, before the reduction modulo 2^32 (R28); BLT has no line there and always faults (R99). -/
def sequencerTable (s : State) : Instr → Int
  | .add .. | .sub .. | .slt .. | .srl .. | .or .. | .and .. => s.pc.toNat + 4
  | .lw .. | .addi .. | .sw .. => s.pc.toNat + 4
  | .jalr _ rs1 imm => (s.reg rs1).toNat + imm.toInt
  | .beq rs1 rs2 imm => if s.reg rs1 = s.reg rs2 ∧ imm.toInt ≠ 0 then s.pc.toNat + imm.toInt else s.pc.toNat + 4
  | .bne rs1 rs2 imm => if s.reg rs1 ≠ s.reg rs2 then s.pc.toNat + imm.toInt else s.pc.toNat + 4
  | .blt .. => s.pc.toNat
  | .jal _ imm => s.pc.toNat + imm.toInt

/-- The instruction is a branch or a jump that runs (R101). -/
def transfersControl (i : Instr) : Prop :=
  (∃ rd rs1 imm, i = .jalr rd rs1 imm) ∨ (∃ rs1 rs2 imm, i = .beq rs1 rs2 imm) ∨
  (∃ rs1 rs2 imm, i = .bne rs1 rs2 imm) ∨ ∃ rd imm, i = .jal rd imm

/-- k steps of the machine the host runs, from any state. -/
def runFor (k : Nat) (s : State) : Host.Outcome State Fault Refusal := Host.Core.run Sys2Proof.core k s

end Sys2Proof.Claims

open Sys2Proof Sys2Proof.Machine Sys2Proof.Claims

/-! ## R-type instructions -/

/-- R84. The opcode and funct values are the spec's from general knowledge (R71, D21, log entry 7). -/
def Obligations.AddWritesWrappedSum : Prop :=
  RowR 0x00000033#32 Instr.add ∧ ExecutesR Instr.add fun a b => ((a.toNat : Int) + b.toNat) % 2 ^ 32

/-- R85. The opcode and funct values are the spec's from general knowledge (R71, D21, log entry 7). -/
def Obligations.SubWritesWrappedDifference : Prop :=
  RowR 0x40000033#32 Instr.sub ∧ ExecutesR Instr.sub fun a b => ((a.toNat : Int) - b.toNat) % 2 ^ 32

/-- R86. The opcode and funct values are the spec's from general knowledge (R71, D21, log entry 7), and so are
the results 1 and 0. -/
def Obligations.SltWritesSignedComparison : Prop :=
  RowR 0x00002033#32 Instr.slt ∧
    ExecutesR Instr.slt fun a b => if signedOf 32 a.toNat < signedOf 32 b.toNat then 1 else 0

/-- R87. The opcode and funct values are the spec's from general knowledge (R71, D21, log entry 7), and so are
the direction and the zero fill; keeping the mask mod 16 is decision D20. -/
def Obligations.SrlShiftsByLowFourBits : Prop :=
  RowR 0x00005033#32 Instr.srl ∧ ExecutesR Instr.srl fun a b => ((a.toNat / 2 ^ (b.toNat % 16) : Nat) : Int)

/-- R88. The opcode and funct values are the spec's from general knowledge (R71, D21, log entry 7), and so is
the bitwise operation. -/
def Obligations.OrWritesBitwiseOr : Prop :=
  RowR 0x00006033#32 Instr.or ∧ ExecutesR Instr.or fun a b => ((a.toNat ||| b.toNat : Nat) : Int)

/-- R89. The opcode and funct values are the spec's from general knowledge (R71, D21, log entry 7), and so is
the bitwise operation. -/
def Obligations.AndWritesBitwiseAnd : Prop :=
  RowR 0x00007033#32 Instr.and ∧ ExecutesR Instr.and fun a b => ((a.toNat &&& b.toNat : Nat) : Int)

/-- R82: the six operations in integer arithmetic, OR and AND bit by bit. SLT's 1 and 0, SRL's direction and fill and the
bitwise OR and AND are the spec's from general knowledge (log entry 7). -/
def Obligations.AluFollowsItsSixFormulas : Prop :=
  ∀ a b : Word,
    (alu .add a b).toNat = (a.toNat + b.toNat) % 2 ^ 32 ∧
    ((alu .sub a b).toNat : Int) = ((a.toNat : Int) - b.toNat) % 2 ^ 32 ∧
    (alu .slt a b).toNat = (if signedOf 32 a.toNat < signedOf 32 b.toNat then 1 else 0) ∧
    (alu .srl a b).toNat = a.toNat / 2 ^ (b.toNat % 16) ∧
    (∀ n, (alu .or a b).getLsbD n = (a.getLsbD n || b.getLsbD n)) ∧
    (∀ n, (alu .and a b).getLsbD n = (a.getLsbD n && b.getLsbD n))

/-! ## I-type instructions -/

/-- R91: the mapped case, and the three values of `LW_UNMAPPED` in the unmapped case (the spec's own decision D6); a load to x0
writes nothing (D23). -/
def Obligations.LwLoadsOrFollowsUnmappedParameter : Prop :=
  RowI 0x00002003#32 Instr.lw ∧
  ∀ rd rs1 imm (s : State),
    ((effectiveAddress s rs1 imm).toNat : Int) = ((s.reg rs1).toNat + imm.toInt) % 2 ^ 32 ∧
    (∀ v, s.mem.read (effectiveAddress s rs1 imm) = some v →
      ∃ t, exec (.lw rd rs1 imm) s = .next t ∧ WritesOnly s t rd v ∧ PcAdvances s t ∧ KeepsMemory s t ∧ KeepsRun s t) ∧
    (s.mem.read (effectiveAddress s rs1 imm) = none → s.config.lwUnmapped = .keep →
      ∃ t, exec (.lw rd rs1 imm) s = .next t ∧ KeepsRegisters s t ∧ PcAdvances s t ∧ KeepsMemory s t ∧ KeepsRun s t) ∧
    (s.mem.read (effectiveAddress s rs1 imm) = none → s.config.lwUnmapped = .zero →
      ∃ t, exec (.lw rd rs1 imm) s = .next t ∧ WritesOnly s t rd 0#32 ∧ PcAdvances s t ∧ KeepsMemory s t ∧ KeepsRun s t) ∧
    (s.mem.read (effectiveAddress s rs1 imm) = none → s.config.lwUnmapped = .fault →
      exec (.lw rd rs1 imm) s = .next (faultedAt s (.unmappedLoad (effectiveAddress s rs1 imm))))

/-- R92 -/
def Obligations.AddiAddsSignedImmediate : Prop :=
  RowI 0x00000013#32 Instr.addi ∧
  ∀ rd rs1 imm (s : State), ∃ t, exec (.addi rd rs1 imm) s = .next t ∧
    WritesOnly s t rd (BitVec.ofInt 32 (((s.reg rs1).toNat + imm.toInt) % 2 ^ 32)) ∧
    PcAdvances s t ∧ KeepsMemory s t ∧ KeepsRun s t

/-- R93: the target is read before the link is written, and its bit 0 is kept (the spec's own decisions D9 and D20). -/
def Obligations.JalrLinksAndJumpsToRegisterSum : Prop :=
  RowI 0x00000067#32 Instr.jalr ∧
  ∀ rd rs1 imm (s : State), ∃ t, exec (.jalr rd rs1 imm) s = .next t ∧
    WritesOnly s t rd (BitVec.ofNat 32 ((s.pc.toNat + 4) % 2 ^ 32)) ∧
    (t.pc.toNat : Int) = ((s.reg rs1).toNat + imm.toInt) % 2 ^ 32 ∧ KeepsMemory s t ∧ KeepsRun s t

/-! ## S-type instruction -/

/-- R94: the word at the effective address and no other; which map it lands in; no register. What SW stores and which
addresses are resident are the spec's own readings (D8, D7). -/
def Obligations.SwStoresOneWord : Prop :=
  (∀ m w, w &&& 0x0000707F#32 = 0x00002023#32 →
    ∃ rs1 rs2 imm, decodeExecutable m w = .instr (.sw rs1 rs2 imm) ∧
      rs1.val = field w 19 15 ∧ rs2.val = field w 24 20 ∧ imm.toInt = signedOf 12 (patternS w)) ∧
  ∀ rs1 rs2 imm (s : State),
    ((effectiveAddress s rs1 imm).toNat : Int) = ((s.reg rs1).toNat + imm.toInt) % 2 ^ 32 ∧
    ∃ t, exec (.sw rs1 rs2 imm) s = .next t ∧
      t.mem.read (effectiveAddress s rs1 imm) = some (s.reg rs2) ∧
      (∀ a, a ≠ effectiveAddress s rs1 imm → t.mem.read a = s.mem.read a) ∧
      (∀ k : Fin 32, (effectiveAddress s rs1 imm).toNat = 65536 + 4 * k.val →
        t.mem.res.get k = s.reg rs2 ∧ t.mem.scratch = s.mem.scratch) ∧
      ((∀ k : Fin 32, (effectiveAddress s rs1 imm).toNat ≠ 65536 + 4 * k.val) → t.mem.res = s.mem.res) ∧
      KeepsRegisters s t ∧ PcAdvances s t ∧ KeepsRun s t

/-! ## B-type instructions -/

/-- R97, with the halt of R96: no register and no data word changes in any case. The opcode is the spec's from general
knowledge (log entry 7), and keeping the halt is decision D20. -/
def Obligations.BeqBranchesOrHalts : Prop :=
  RowB 0x00000063#32 Instr.beq ∧
  ∀ rs1 rs2 imm (s : State), ∃ t, exec (.beq rs1 rs2 imm) s = .next t ∧
    KeepsRegisters s t ∧ KeepsMemory s t ∧ t.trace = s.trace ∧ t.config = s.config ∧
    (s.reg rs1 = s.reg rs2 → imm.toInt = 0 → PcAdvances s t ∧ t.run = .halted) ∧
    (s.reg rs1 = s.reg rs2 → imm.toInt ≠ 0 → JumpsBy s t imm ∧ t.run = s.run) ∧
    (s.reg rs1 ≠ s.reg rs2 → PcAdvances s t ∧ t.run = s.run)

/-- R98: BNE never halts. The opcode is the spec's from general knowledge (log entry 7). -/
def Obligations.BneBranchesWhenDifferent : Prop :=
  RowB 0x00001063#32 Instr.bne ∧
  ∀ rs1 rs2 imm (s : State), ∃ t, exec (.bne rs1 rs2 imm) s = .next t ∧
    KeepsRegisters s t ∧ KeepsMemory s t ∧ KeepsRun s t ∧
    (s.reg rs1 ≠ s.reg rs2 → JumpsBy s t imm) ∧ (s.reg rs1 = s.reg rs2 → PcAdvances s t)

/-- R99: BLT and every B-type funct3 but 000 and 001 decode to Unsupported, and a step that fetches one faults with the word.
Giving every such funct3 the fault is the spec's own decision D5; BLT's funct3 is from general knowledge (log entry 7). -/
def Obligations.BltIsFatal : Prop :=
  (∀ m w, w &&& 0x0000707F#32 = 0x00004063#32 → decodeExecutable m w = .unsupported) ∧
  (∀ m w, field w 6 0 = 0b1100011 → field w 14 12 ≠ 0b000 → field w 14 12 ≠ 0b001 →
    decodeExecutable m w = .unsupported) ∧
  (∀ (s : State) w, s.run = .running → Fetches s w → field w 6 0 = 0b1100011 → field w 14 12 ≠ 0b000 → field w 14 12 ≠ 0b001 →
    step s = .next (faultedAt s (.unsupportedInstruction w)))

/-- The model reads a BLT word as an instruction of its own row (the model's choice, log entry 5); its execution takes R99's
fault, with the word it was read from, and with a word of BLT's row whatever its operands. -/
def Obligations.BltRowFaultsWithItsOwnWord : Prop :=
  (∀ m w, w &&& 0x0000707F#32 = 0x00004063#32 →
    ∃ rs1 rs2 imm, decode m w = .instr (.blt rs1 rs2 imm) ∧
      rs1.val = field w 19 15 ∧ rs2.val = field w 24 20 ∧ imm.toInt = signedOf 13 (patternB w) ∧
      ∀ s : State, exec (.blt rs1 rs2 imm) s = .next (faultedAt s (.unsupportedInstruction w))) ∧
  (∀ rs1 rs2 imm (s : State), ∃ w, w &&& 0x0000707F#32 = 0x00004063#32 ∧
    exec (.blt rs1 rs2 imm) s = .next (faultedAt s (.unsupportedInstruction w)))

/-- R95: the comparator's whole answer. -/
def Obligations.ComparatorHaltsOnlyOnEqualZeroBeq : Prop :=
  ∀ a b imm : Word,
    (branchCompare .beq a b imm = .halt ↔ a = b ∧ imm = 0#32) ∧
    (branchCompare .beq a b imm = .taken ↔ a = b ∧ imm ≠ 0#32) ∧
    (branchCompare .beq a b imm = .notTaken ↔ a ≠ b) ∧
    (branchCompare .bne a b imm = .taken ↔ a ≠ b) ∧
    (branchCompare .bne a b imm = .notTaken ↔ a = b)

/-! ## J-type instruction -/

/-- R100, with both readings of the immediate (R69, the spec's own decision D10). The opcode is the spec's from general
knowledge (log entry 7). -/
def Obligations.JalLinksAndJumps : Prop :=
  (∀ w, w &&& 0x0000007F#32 = 0x0000006F#32 →
    (∃ rd imm, decodeExecutable .standard w = .instr (.jal rd imm) ∧ rd.val = field w 11 7 ∧
      imm.toInt = signedOf 21 (patternJ w)) ∧
    (∃ rd imm, decodeExecutable .literal w = .instr (.jal rd imm) ∧ rd.val = field w 11 7 ∧
      imm.toNat = patternJLiteral w)) ∧
  ∀ rd imm (s : State), ∃ t, exec (.jal rd imm) s = .next t ∧
    WritesOnly s t rd (BitVec.ofNat 32 ((s.pc.toNat + 4) % 2 ^ 32)) ∧ JumpsBy s t imm ∧ KeepsMemory s t ∧ KeepsRun s t

/-! ## Encoding -/

/-- Decoding an encoded well-formed instruction gives it back, in either reading of the JAL immediate. That BLT decodes to its
row and that the literal reading has an encoder are the model's choices (log entries 5 and 9). -/
def Obligations.DecodeOfEncodeIsIdentity : Prop :=
  ∀ m i, i.wf m = true → decode m (encode m i) = .instr i

/-- A decoded instruction is well-formed and its word is the one it was read from: each word has one meaning (log entries 5
and 9, as above). -/
def Obligations.EncodeOfDecodeIsIdentity : Prop :=
  ∀ m w i, decode m w = .instr i → i.wf m = true ∧ encode m i = w

/-- R66 to R69: the immediates as signed numbers, their ranges, when immB is 0, and where the two JAL readings agree (the last
two are marked derived in R68 and R69; the two readings are decision D10). -/
def Obligations.ImmediatesFollowTheFormatTables : Prop :=
  ∀ w : Word,
    ((immI w).toInt = signedOf 12 (field w 31 20) ∧ -2048 ≤ (immI w).toInt ∧ (immI w).toInt ≤ 2047) ∧
    ((immS w).toInt = signedOf 12 (patternS w) ∧ -2048 ≤ (immS w).toInt ∧ (immS w).toInt ≤ 2047) ∧
    ((immB w).toInt = signedOf 13 (patternB w) ∧ (immB w).toInt % 2 = 0 ∧
      -4096 ≤ (immB w).toInt ∧ (immB w).toInt ≤ 4094 ∧
      (immB w = 0#32 ↔ field w 31 31 = 0 ∧ field w 7 7 = 0 ∧ field w 30 25 = 0 ∧ field w 11 8 = 0)) ∧
    ((immJ .standard w).toInt = signedOf 21 (patternJ w) ∧ (immJ .standard w).toInt % 2 = 0 ∧
      -1048576 ≤ (immJ .standard w).toInt ∧ (immJ .standard w).toInt ≤ 1048574) ∧
    ((immJ .literal w).toNat = patternJLiteral w ∧ (immJ .literal w).toNat ≤ 1048575 ∧
      (immJ .literal w).toNat % 2 = field w 31 31) ∧
    (immJ .standard w = immJ .literal w ↔ field w 31 31 = 0)

/-- R19: the codec's two functions are inverse at each width, and sign extension modulo 2^32 is `sext`. -/
def Obligations.CodecRoundTripsAtEveryWidth : Prop :=
  (∀ (n : Nat) (v : Int), 1 ≤ n → -(2 ^ (n - 1)) ≤ v → v ≤ 2 ^ (n - 1) - 1 →
    0 ≤ toTwosComplement v n ∧ toTwosComplement v n < 2 ^ n ∧ (0 ≤ v → toTwosComplement v n = v) ∧
    (v < 0 → toTwosComplement v n = 2 ^ n + v) ∧ codecSignExtend (toTwosComplement v n) n = v) ∧
  (∀ (n b : Nat), 1 ≤ n → n ≤ 32 → b < 2 ^ n →
    codecSignExtend b n = signedOf n b ∧
    BitVec.ofInt 32 (codecSignExtend b n) = (BitVec.ofNat n b).signExtend 32)

/-- The decoder reads a word as an instruction exactly when the word fits that instruction's row of the opcode table; BLT's row
is one (the model's choice, log entry 5). -/
def Obligations.DecodedRowIsTheTableRow : Prop :=
  ∀ m w,
    (∀ i, decode m w = .instr i → w &&& i.rowMask = i.rowMatch) ∧
    (∀ i : Instr, w &&& i.rowMask = i.rowMatch →
      ∃ j, decode m w = .instr j ∧ j.rowMask = i.rowMask ∧ j.rowMatch = i.rowMatch)

/-- R72, R73: a word is Unsupported exactly when it fits none of the 13 executable rows, and running it faults. Refusing an
unlisted funct3 or funct7 is the spec's own decision D5. -/
def Obligations.UnsupportedExactlyOffTheTable : Prop :=
  (∀ m w, decodeExecutable m w = .unsupported ↔ ¬ OnTable w) ∧
  (∀ m, decodeExecutable m 0x00000000#32 = .unsupported ∧ decodeExecutable m 0xFFFFFFFF#32 = .unsupported) ∧
  (∀ m w, field w 1 0 ≠ 0b11 → decodeExecutable m w = .unsupported) ∧
  (∀ (s : State) w, s.run = .running → Fetches s w → ¬ OnTable w → step s = .next (faultedAt s (.unsupportedInstruction w)))

/-- A sanity check: words written out from the encoding tables, one of each family, decode to what they stand for. -/
def Obligations.SampleWordsDecode : Prop :=
  decode .standard 0b0000000_00010_00001_000_00011_0110011#32 = .instr (.add 3 1 2) ∧
  decode .standard 0b100000000000_00010_000_00001_0010011#32 = .instr (.addi 1 2 (-2048)) ∧
  decode .standard 0b0000011_00111_00101_010_11100_0100011#32 = .instr (.sw 5 7 124) ∧
  decode .standard 0b1_111111_00000_00101_001_1100_1_1100011#32 = .instr (.bne 5 0 (-8)) ∧
  decode .standard 0b1_1111111110_1_11111111_00000_1101111#32 = .instr (.jal 0 (-4)) ∧
  decode .literal 0b1_1111111110_1_11111111_00000_1101111#32 = .instr (.jal 0 1048573)

/-! ## State and reset -/

/-- R41, R26: the state at the start of a run, whatever program and parameters the host supplies (R119). -/
def Obligations.LaunchStateIsTheResetState : Prop :=
  ∀ c : Config,
    ((State.launch c).regs.get 2).toNat = 380 ∧ (∀ r, r ≠ 2 → (State.launch c).regs.get r = 0#32) ∧
    (State.launch c).pc = 0#32 ∧
    (∀ k : Fin 32, (State.launch c).mem.res.get k = 0#32) ∧
    (∀ a : Word, (∀ k : Fin 32, a.toNat ≠ 65536 + 4 * k.val) → (State.launch c).mem.read a = none) ∧
    (State.launch c).run = .running ∧ (State.launch c).trace = [] ∧ (State.launch c).config = c

/-- R23: x0 reads 0, a write to it is discarded, and no instruction changes its stored value, which is 0 at reset (that LW
to x0 is one of them is the spec's own decision D23). -/
def Obligations.X0ReadsZeroAndIsNeverWritten : Prop :=
  (∀ s : State, s.reg 0 = 0#32) ∧ (∀ (s : State) v, s.setReg 0 v = s) ∧
  (∀ c, (State.launch c).regs.get 0 = 0#32) ∧
  (∀ i (s t : State), exec i s = .next t → t.regs.get 0 = s.regs.get 0) ∧
  (∀ s t : State, step s = .next t → t.regs.get 0 = s.regs.get 0)

/-- Which register an instruction can change: the one its rd field names, never x0; SW, BEQ, BNE and BLT none; LW from an
address in no map none unless the parameter is `zero`. -/
def Obligations.OnlyTheDestinationRegisterChanges : Prop :=
  ∀ i (s t : State), exec i s = .next t →
    (∀ r, t.regs.get r ≠ s.regs.get r → destination i = some r ∧ r ≠ 0) ∧
    (∀ rd rs1 imm, i = .lw rd rs1 imm → s.mem.read (effectiveAddress s rs1 imm) = none → s.config.lwUnmapped ≠ .zero →
      KeepsRegisters s t)

/-- R24: an instruction's effect depends on no register but the ones it reads. -/
def Obligations.OnlyTheSourceRegistersAreRead : Prop :=
  ∀ i (s : State) g t u, (∀ r ∈ sources i, State.reg { s with regs := g } r = s.reg r) →
    exec i s = .next t → exec i { s with regs := g } = .next u →
    u.pc = t.pc ∧ u.mem = t.mem ∧ u.run = t.run ∧ u.trace = t.trace ∧ u.config = t.config ∧
    ∀ r, u.regs.get r = t.regs.get r ∨ (t.regs.get r = s.regs.get r ∧ u.regs.get r = g.get r)

/-- R28: the next pc of every instruction that does not fault, and the one case that raises the halt flag. -/
def Obligations.NextPcFollowsTheSequencerTable : Prop :=
  ∀ i (s t : State), exec i s = .next t → s.run = .running →
    (t.faultFree → (t.pc.toNat : Int) = sequencerTable s i % 2 ^ 32) ∧
    (t.run = .halted ↔ ∃ rs1 rs2, i = .beq rs1 rs2 0#32 ∧ s.reg rs1 = s.reg rs2)

/-! ## Memory -/

/-- R46: an address is resident exactly when it is one of the 32 keys 65536 + 4k (the spec's own decision D7). -/
def Obligations.TranslatorIsKeyMembership : Prop :=
  ∀ ea : Word,
    (∀ k : Fin 32, translateAddress ea = .resident k ↔ ea.toNat = 65536 + 4 * k.val) ∧
    (∀ a, translateAddress ea = .scratch a ↔ a = ea ∧ ∀ k : Fin 32, ea.toNat ≠ 65536 + 4 * k.val)

/-- R47: a resident address reads its word; any other reads its scratch entry, or `none` where there is none. -/
def Obligations.ReadsFollowTheTranslator : Prop :=
  ∀ (m : Memory) (ea : Word), m.wf →
    (∀ k, translateAddress ea = .resident k → m.read ea = some (m.res.get k)) ∧
    (∀ a, translateAddress ea = .scratch a →
      (∀ v, m.read ea = some v ↔ (a.toNat, v) ∈ m.scratch) ∧ (m.read ea = none ↔ ∀ v, (a.toNat, v) ∉ m.scratch))

/-- R48: a write always succeeds, goes to one map and is what its own address then reads; any other address, however near,
reads as before (R50). -/
def Obligations.WritesAreSeenAtTheirAddressOnly : Prop :=
  ∀ (m : Memory) (ea v : Word),
    (m.write ea v).read ea = some v ∧
    (∀ a, a ≠ ea → (m.write ea v).read a = m.read a) ∧
    (∀ k : Fin 32, translateAddress ea = .resident k →
      (∀ j, (m.write ea v).res.get j = if j = k then v else m.res.get j) ∧ (m.write ea v).scratch = m.scratch) ∧
    (translateAddress ea = .scratch ea → (m.write ea v).res = m.res)

/-- The canonical form is one form: memories in it that read alike are equal data (the model's own choice, log entry 6). -/
def Obligations.CanonicalMemoriesThatReadAlikeAreEqual : Prop :=
  ∀ m n : Memory, m.wf → n.wf → (∀ a, m.read a = n.read a) → m = n

/-- A word stored by SW is what a later LW of the same address gives, whichever map received it. -/
def Obligations.LoadAfterStoreGivesTheStoredWord : Prop :=
  ∀ (s t : State) rs1 rs2 imm rd rs1' imm', exec (.sw rs1 rs2 imm) s = .next t →
    effectiveAddress t rs1' imm' = effectiveAddress s rs1 imm →
    ∃ u, exec (.lw rd rs1' imm') t = .next u ∧ WritesOnly t u rd (s.reg rs2) ∧ KeepsMemory t u

/-- The whole machine: a step changes what a data address reads only by running an SW whose effective address it is, and
then the address reads the stored word; entries never disappear. -/
def Obligations.OnlySwChangesADataWord : Prop :=
  ∀ (s t : State) a, step s = .next t →
    (t.mem.read a ≠ s.mem.read a →
      ∃ w rs1 rs2 imm, Fetches s w ∧ decode s.config.jImmDecode w = .instr (.sw rs1 rs2 imm) ∧
        a = effectiveAddress s rs1 imm ∧ t.mem.read a = some (s.reg rs2)) ∧
    ((s.mem.read a).isSome = true → (t.mem.read a).isSome = true)

/-- R57, which the spec marks derived from R42 and R34: no step changes the program, and no instruction's execution depends on
it, so neither a load nor a store reaches it. -/
def Obligations.ExecutionNeverReachesTheProgram : Prop :=
  (∀ s t : State, step s = .next t → t.config = s.config) ∧
  (∀ i (s t : State) p, exec i s = .next t →
    exec i { s with config := { s.config with prog := p } } = .next { t with config := { t.config with prog := p } })

/-! ## The step -/

/-- R38: the four answers of the fetch, in the order of R103. What PCOutOfBoundsError means is the spec's own decision D4. -/
def Obligations.FetchFollowsTheProgramBounds : Prop :=
  ∀ s : State, s.run = .running →
    (s.pc.toNat % 4 ≠ 0 → step s = .next (faultedAt s .pcOutOfBounds)) ∧
    (s.pc.toNat = 4 * s.config.nProg → step s = .next (faultedAt s .missingHalt)) ∧
    (4 * s.config.nProg < s.pc.toNat → step s = .next (faultedAt s .pcOutOfBounds)) ∧
    (s.pc.toNat % 4 = 0 → s.pc.toNat < 4 * s.config.nProg →
      ∃ w, s.config.prog[s.pc.toNat / 4]? = some w ∧ step s = stepWord w s)

/-- A step runs the instruction the fetched word decodes to, and adds the trace record unless the instruction faulted. -/
def Obligations.StepRunsTheDecodedInstruction : Prop :=
  ∀ (s : State) w i, s.run = .running → Fetches s w → decode s.config.jImmDecode w = .instr i →
    ∃ u, exec i s = .next u ∧
      (u.faultFree → step s = .next (recorded u)) ∧ (¬ u.faultFree → step s = .next u)

/-- R39, with R72's own decoder, for which BLT is Unsupported: fetch, decode, execute, record, only while RUNNING. -/
def Obligations.StepIsFetchDecodeExecuteRecord : Prop :=
  ∀ s : State,
    (s.run ≠ .running → ∀ t, step s ≠ .next t) ∧
    (s.run = .running → (¬ ∃ w, Fetches s w) → ∃ f, step s = .next (faultedAt s f)) ∧
    (∀ w, s.run = .running → Fetches s w → decodeExecutable s.config.jImmDecode w = .unsupported →
      step s = .next (faultedAt s (.unsupportedInstruction w))) ∧
    (∀ w i, s.run = .running → Fetches s w → decodeExecutable s.config.jImmDecode w = .instr i →
      ∃ u, exec i s = .next u ∧ (u.faultFree → step s = .next (recorded u)) ∧
        (¬ u.faultFree → step s = .next u ∧ ∃ f, u = faultedAt s f))

/-- The word `withFetchWord` places is the one the very next step runs (the model's own load, log entries 2 and 10). -/
def Obligations.PlacedWordIsTheNextInstruction : Prop :=
  ∀ (s : State) nbits w i, s.config.jImmDecode = .standard → decodeTableWord nbits w = some i →
    ∃ u, exec i (s.withFetchWord nbits w) = .next u ∧
      step (s.withFetchWord nbits w) = .next (if u.run.isFaulted then u else recorded u)

/-- While the run state is RUNNING a step always answers a next state: nothing is refused, and a fault is a next state (the
model's form, log entry 3). -/
def Obligations.RunningStepAlwaysAnswers : Prop :=
  ∀ s : State, s.run = .running → ∃ t, step s = .next t

/-- R104: a faulting step changes the run state and nothing else; no dump follows, and no further step. Which state a fault
leaves is the spec's own choice (D12, D18). -/
def Obligations.FaultChangesOnlyTheRunState : Prop :=
  ∀ (s t : State) f p, step s = .next t → t.run = .faulted f p →
    t = faultedAt s f ∧ p = s.pc ∧ residentDump t = none ∧ ∀ u, step t ≠ .next u

/-- R102, R103: the closed list of faults, each with exactly its cause and what it records (the spec's own decisions D4, D5, D6
and D17). -/
def Obligations.FaultsHaveExactlyTheirCauses : Prop :=
  ∀ s t : State, step s = .next t →
    (∀ p, t.run = .faulted .missingHalt p ↔ p = s.pc ∧ s.pc.toNat = 4 * s.config.nProg) ∧
    (∀ p, t.run = .faulted .pcOutOfBounds p ↔ p = s.pc ∧ (s.pc.toNat % 4 ≠ 0 ∨ 4 * s.config.nProg < s.pc.toNat)) ∧
    (∀ w p, t.run = .faulted (.unsupportedInstruction w) p ↔ p = s.pc ∧ Fetches s w ∧ ¬ OnTable w) ∧
    (∀ ea p, t.run = .faulted (.unmappedLoad ea) p ↔ p = s.pc ∧ ∃ w rd rs1 imm, Fetches s w ∧
      decode s.config.jImmDecode w = .instr (.lw rd rs1 imm) ∧ ea = effectiveAddress s rs1 imm ∧
      s.mem.read ea = none ∧ s.config.lwUnmapped = .fault)

/-- R96, and R31's and R95's "only": a step ends in HALTED exactly when it runs a BEQ with equal operands and immediate 0;
it then writes no register and no data word, appends its own record, and is the last step. -/
def Obligations.HaltingStepIsTheEqualZeroBeq : Prop :=
  ∀ s t : State, step s = .next t →
    (t.run = .halted ↔ ∃ w rs1 rs2, Fetches s w ∧ decode s.config.jImmDecode w = .instr (.beq rs1 rs2 0#32) ∧
      s.reg rs1 = s.reg rs2) ∧
    (t.run = .halted →
      t = recorded { s with pc := s.pc + 4#32, run := .halted } ∧ residentDump t = some s.mem.residentPairs ∧
      ∀ u, step t ≠ .next u)

/-- R40: no step is defined from HALTED or FAULTED, and a run that reaches neither goes on forever. -/
def Obligations.RunsGoOnUntilHaltedOrFaulted : Prop :=
  (∀ s : State, s.run ≠ .running → ∀ t, step s ≠ .next t) ∧
  (∀ (s : State) k, s.run = .running →
    (∃ t, runFor k s = .next t ∧ t.run = .running) ∨ ∃ j t, j ≤ k ∧ runFor j s = .next t ∧ t.run ≠ .running)

/-- R40's example: BNE with immediate 0 and unequal operands keeps the run going forever at the same pc. -/
def Obligations.BneToItselfNeverEnds : Prop :=
  ∀ (s : State) w rs1 rs2, s.run = .running → Fetches s w → decode s.config.jImmDecode w = .instr (.bne rs1 rs2 0#32) →
    s.reg rs1 ≠ s.reg rs2 →
    ∀ k, ∃ t, runFor k s = .next t ∧ t.run = .running ∧ t.pc = s.pc ∧ t.regs = s.regs ∧ t.mem = s.mem ∧
      t.trace.length = s.trace.length + k

/-- R37, R114: a completed instruction appends exactly its own record of the next pc and the written registers, the log starts
empty, and no step reads it. That a faulting step appends no record is R39's and R104's, and R104 marks the absence of that
record as the spec's own choice (D12, D18, log entry 15). -/
def Obligations.TraceGrowsByOneRecordAndIsNeverRead : Prop :=
  (∀ c, (State.launch c).trace = []) ∧
  ∀ s t : State, step s = .next t →
    (t.faultFree → t.trace = s.trace ++ [{ pc := t.pc, regs := t.regs }]) ∧
    (¬ t.faultFree → t.trace = s.trace) ∧
    (∀ l, step { s with trace := l } =
      .next { t with trace := if t.run.isFaulted then l else l ++ [{ pc := t.pc, regs := t.regs }] })

/-- R30, with R38: only a branch or a jump can leave a pc that is no multiple of 4, and the fetch from it faults (the spec's own
decision D4). -/
def Obligations.MisalignedTargetsFaultAtTheNextFetch : Prop :=
  ∀ s t : State, step s = .next t → t.run = .running → t.pc.toNat % 4 ≠ 0 →
    (∃ w i, Fetches s w ∧ decode s.config.jImmDecode w = .instr i ∧ transfersControl i) ∧
    step t = .next (faultedAt t .pcOutOfBounds)

/-- R100's corner case: under `J_IMM_DECODE = literal` a JAL word with inst[31] = 1 jumps forward by an odd amount, and the
next fetch faults. The literal reading (R69) is the spec's own decision D10, the fault of a misaligned fetch (R38) its
decision D4 (log entry 15). -/
def Obligations.LiteralOddJumpFaultsAtTheNextFetch : Prop :=
  ∀ (s : State) w, s.run = .running → Fetches s w → s.config.jImmDecode = .literal →
    field w 6 0 = 0b1101111 → field w 31 31 = 1 →
    ∃ t, step s = .next t ∧ t.pc.toNat = (s.pc.toNat + patternJLiteral w) % 2 ^ 32 ∧ t.pc.toNat % 2 = 1 ∧
      step t = .next (faultedAt t .pcOutOfBounds)

/-! ## Runs, invariants and observation -/

/-- The invariant holds at the start of every run within the program bound, and at the model's reset (log entry 1). -/
def Obligations.LaunchMeetsTheInvariant : Prop :=
  (∀ c : Config, c.wf = true → (State.launch c).Inv) ∧ State.reset.Inv

/-- Every step keeps the invariant, from every state that meets it (its canonical form is the model's, log entry 6). -/
def Obligations.EveryStepKeepsTheInvariant : Prop :=
  ∀ s t : State, s.Inv → step s = .next t → t.Inv

/-- Every state of a run meets the invariant and still holds the program and parameters it was launched with. -/
def Obligations.ReachableStatesKeepTheInvariantAndTheProgram : Prop :=
  ∀ c s, c.wf = true → Reachable c s → s.Inv ∧ s.config = c

/-- After k steps of a run the trace has one record per completed instruction: k, or k - 1 if the last step faulted. -/
def Obligations.TraceCountsTheCompletedSteps : Prop :=
  ∀ c k s, runFor k (State.launch c) = .next s →
    (s.faultFree → s.trace.length = k) ∧ (¬ s.faultFree → s.trace.length + 1 = k)

/-- R115: the dump comes exactly after a halt: 32 pairs of resident address and its word, in ascending address order (the
spec's own decision D12). -/
def Obligations.DumpComesExactlyAfterAHalt : Prop :=
  ∀ s : State,
    ((residentDump s).isSome = true ↔ s.run = .halted) ∧
    ∀ d, residentDump s = some d → d.length = 32 ∧
      ∀ k : Fin 32, d[k.val]? = some (65536 + 4 * k.val, s.mem.res.get k)

/-- The first two observations of R118, state by state: a state gives the observation of an ended run exactly when the run has
ended in it, HALTED with the trace and the dump, or FAULTED with its reason and pc and the trace so far. That a state of a run
still RUNNING gives none is the model's form (log entry 17): R118's third observation, divergence, is one of the whole run,
and `EveryRunHasExactlyOneObservation` speaks of it. -/
def Obligations.ObservationComesExactlyAtTheEnd : Prop :=
  ∀ s : State,
    (observe s = none ↔ s.run = .running) ∧
    (s.run = .halted → observe s = some (.halted s.trace s.mem.residentPairs)) ∧
    (∀ f p, s.run = .faulted f p → observe s = some (.faulted f p s.trace))

/-- R118: a run has exactly one observation, and it is one of three things: HALTED with the trace and the dump's pairs, FAULTED
with its reason and pc and the trace so far, each of the state some number of steps ends the run in; or divergence, an infinite
trace whose first k records are the trace after k steps, every one of which leaves the run RUNNING (that form is the model's, log entry
17). -/
def Obligations.EveryRunHasExactlyOneObservation : Prop :=
  ∀ c : Config,
    (∃ o, RunObserves c o ∧ ∀ o', RunObserves c o' → o' = o) ∧
    (∀ l d, RunObserves c (.ended (.halted l d)) ↔
      ∃ k s, runFor k (State.launch c) = .next s ∧ s.run = .halted ∧ l = s.trace ∧ d = s.mem.residentPairs) ∧
    (∀ f p l, RunObserves c (.ended (.faulted f p l)) ↔
      ∃ k s, runFor k (State.launch c) = .next s ∧ s.run = .faulted f p ∧ l = s.trace) ∧
    (∀ r : Nat → TraceRecord, RunObserves c (.divergence r) ↔
      ∀ k, ∃ s, runFor k (State.launch c) = .next s ∧ s.run = .running ∧ s.trace.length = k ∧
        ∀ n, n < k → s.trace[n]? = some (r n))

/-- R118's divergence, by the hangs of R40 (BNE with immediate 0 and unequal operands) and R100 (`jal x0, 0`): a run that
reaches one has the observation divergence, and its trace (in the form of log entry 17) repeats the record of that pc and those registers from there
on. -/
def Obligations.ReachedHangGivesDivergence : Prop :=
  ∀ c k (s : State) w i, runFor k (State.launch c) = .next s → s.run = .running → Fetches s w →
    decode s.config.jImmDecode w = .instr i →
    (i = .jal 0 0#32 ∨ ∃ rs1 rs2, i = .bne rs1 rs2 0#32 ∧ s.reg rs1 ≠ s.reg rs2) →
    ∃ r, RunObserves c (.divergence r) ∧ ∀ n, k ≤ n → r n = { pc := s.pc, regs := s.regs }

/-- The trace text's values: 32 binary characters, most significant first, and a decimal that stands for the same pattern
in both values of the OPEN parameter (R116, R59, log entry 8). -/
def Obligations.TraceTextStandsForThePattern : Prop :=
  ∀ w : Word,
    (binaryChars w).length = 32 ∧
    (∀ n, n < 32 → (binaryChars w)[n]? = some (if field w (31 - n) (31 - n) = 1 then '1' else '0')) ∧
    (∀ m, BitVec.ofInt 32 (decimalValue m w) = w) ∧
    (0 ≤ decimalValue .unsigned w ∧ decimalValue .unsigned w < 2 ^ 32) ∧
    (-(2 ^ 31) ≤ decimalValue .signed w ∧ decimalValue .signed w < 2 ^ 31)
end

