-- ==== Sys2Proof/Laws/Decode.lean ====
section
/-! SUPPORT. The fields, the immediates and the encoders as arithmetic on naturals, and each field of each encoded format. -/

namespace Sys2Proof

/-- `a : b` as a number (R15). -/
theorem append_toNat {m n : Nat} (x : BitVec m) (y : BitVec n) : (x ++ y).toNat = x.toNat * 2 ^ n + y.toNat := by
  rw [BitVec.toNat_append, ← Nat.shiftLeft_add_eq_or_of_lt y.isLt, Nat.shiftLeft_eq]

/-- A field of a word as a number (R15). -/
theorem extract_toNat (w : Word) (lo len : Nat) : (w.extractLsb' lo len).toNat = w.toNat / 2 ^ lo % 2 ^ len := by
  rw [BitVec.extractLsb'_toNat, Nat.shiftRight_eq_div_pow]

/-! ## Fields -/

theorem opcodeOf_toNat (w : Word) : (opcodeOf w).toNat = w.toNat % 2 ^ 7 := by
  rw [opcodeOf, extract_toNat, Nat.pow_zero, Nat.div_one]

theorem funct3Of_toNat (w : Word) : (funct3Of w).toNat = w.toNat / 2 ^ 12 % 2 ^ 3 := extract_toNat w 12 3

theorem funct7Of_toNat (w : Word) : (funct7Of w).toNat = w.toNat / 2 ^ 25 % 2 ^ 7 := extract_toNat w 25 7

theorem rdOf_val (w : Word) : (rdOf w).val = w.toNat / 2 ^ 7 % 2 ^ 5 := extract_toNat w 7 5

theorem rs1Of_val (w : Word) : (rs1Of w).val = w.toNat / 2 ^ 15 % 2 ^ 5 := extract_toNat w 15 5

theorem rs2Of_val (w : Word) : (rs2Of w).val = w.toNat / 2 ^ 20 % 2 ^ 5 := extract_toNat w 20 5

@[simp] theorem regBits_toNat (r : RegId) : (regBits r).toNat = r.val := rfl

/-! ## The decoder, one major opcode at a time (R72) -/

theorem decode_opR {m : JImmDecode} {w : Word} (h : opcodeOf w = opR) : decode m w = decodeR w := by
  rw [decode, if_pos h]

theorem decode_opLoad {m : JImmDecode} {w : Word} (h : opcodeOf w = opLoad) :
    decode m w = if funct3Of w = 0b010#3 then .instr (.lw (rdOf w) (rs1Of w) (immI w)) else .unsupported := by
  rw [decode, h, if_neg (by decide), if_pos rfl]

theorem decode_opImm {m : JImmDecode} {w : Word} (h : opcodeOf w = opImm) :
    decode m w = if funct3Of w = 0b000#3 then .instr (.addi (rdOf w) (rs1Of w) (immI w)) else .unsupported := by
  rw [decode, h, if_neg (by decide), if_neg (by decide), if_pos rfl]

theorem decode_opJalr {m : JImmDecode} {w : Word} (h : opcodeOf w = opJalr) :
    decode m w = if funct3Of w = 0b000#3 then .instr (.jalr (rdOf w) (rs1Of w) (immI w)) else .unsupported := by
  rw [decode, h, if_neg (by decide), if_neg (by decide), if_neg (by decide), if_pos rfl]

theorem decode_opStore {m : JImmDecode} {w : Word} (h : opcodeOf w = opStore) :
    decode m w = if funct3Of w = 0b010#3 then .instr (.sw (rs1Of w) (rs2Of w) (immS w)) else .unsupported := by
  rw [decode, h, if_neg (by decide), if_neg (by decide), if_neg (by decide), if_neg (by decide), if_pos rfl]

theorem decode_opBranch {m : JImmDecode} {w : Word} (h : opcodeOf w = opBranch) : decode m w = decodeB w := by
  rw [decode, h, if_neg (by decide), if_neg (by decide), if_neg (by decide), if_neg (by decide), if_neg (by decide), if_pos rfl]

theorem decode_opJal {m : JImmDecode} {w : Word} (h : opcodeOf w = opJal) :
    decode m w = .instr (.jal (rdOf w) (immJ m w)) := by
  rw [decode, h, if_neg (by decide), if_neg (by decide), if_neg (by decide), if_neg (by decide), if_neg (by decide),
    if_neg (by decide), if_pos rfl]

/-- R72's decoder on a word of the table: the instruction, or Unsupported for BLT. -/
theorem decodeExecutable_of_instr {m : JImmDecode} {w : Word} {i : Instr} (h : decode m w = .instr i) :
    decodeExecutable m w = if i.executable then .instr i else .unsupported := by
  rw [decodeExecutable, h]

theorem decodeExecutable_of_unsupported {m : JImmDecode} {w : Word} (h : decode m w = .unsupported) :
    decodeExecutable m w = .unsupported := by
  rw [decodeExecutable, h]

/-- Every instruction the decoder answers, with the fields that made it so: its inversion. -/
theorem decode_cases {m : JImmDecode} {w : Word} {i : Instr} (h : decode m w = .instr i) :
    (opcodeOf w = opR ∧ funct7Of w = 0b0000000#7 ∧ funct3Of w = 0b000#3 ∧ i = .add (rdOf w) (rs1Of w) (rs2Of w)) ∨
    (opcodeOf w = opR ∧ funct7Of w = 0b0100000#7 ∧ funct3Of w = 0b000#3 ∧ i = .sub (rdOf w) (rs1Of w) (rs2Of w)) ∨
    (opcodeOf w = opR ∧ funct7Of w = 0b0000000#7 ∧ funct3Of w = 0b010#3 ∧ i = .slt (rdOf w) (rs1Of w) (rs2Of w)) ∨
    (opcodeOf w = opR ∧ funct7Of w = 0b0000000#7 ∧ funct3Of w = 0b101#3 ∧ i = .srl (rdOf w) (rs1Of w) (rs2Of w)) ∨
    (opcodeOf w = opR ∧ funct7Of w = 0b0000000#7 ∧ funct3Of w = 0b110#3 ∧ i = .or (rdOf w) (rs1Of w) (rs2Of w)) ∨
    (opcodeOf w = opR ∧ funct7Of w = 0b0000000#7 ∧ funct3Of w = 0b111#3 ∧ i = .and (rdOf w) (rs1Of w) (rs2Of w)) ∨
    (opcodeOf w = opLoad ∧ funct3Of w = 0b010#3 ∧ i = .lw (rdOf w) (rs1Of w) (immI w)) ∨
    (opcodeOf w = opImm ∧ funct3Of w = 0b000#3 ∧ i = .addi (rdOf w) (rs1Of w) (immI w)) ∨
    (opcodeOf w = opJalr ∧ funct3Of w = 0b000#3 ∧ i = .jalr (rdOf w) (rs1Of w) (immI w)) ∨
    (opcodeOf w = opStore ∧ funct3Of w = 0b010#3 ∧ i = .sw (rs1Of w) (rs2Of w) (immS w)) ∨
    (opcodeOf w = opBranch ∧ funct3Of w = 0b000#3 ∧ i = .beq (rs1Of w) (rs2Of w) (immB w)) ∨
    (opcodeOf w = opBranch ∧ funct3Of w = 0b001#3 ∧ i = .bne (rs1Of w) (rs2Of w) (immB w)) ∨
    (opcodeOf w = opBranch ∧ funct3Of w = 0b100#3 ∧ i = .blt (rs1Of w) (rs2Of w) (immB w)) ∨
    (opcodeOf w = opJal ∧ i = .jal (rdOf w) (immJ m w)) := by
  unfold decode decodeR decodeB at h
  dsimp only at h
  split_ifs at h with ho h7 h3 h3 h3 h3 h3 h7 h3 ho h3 ho h3 ho h3 ho h3 ho h3 h3 h3 ho <;>
  · cases h
    simp_all

/-! ## Words that fit a row -/

/-- A word that fits a row under the R-type mask has the row's funct7, funct3 and opcode. -/
theorem fields_of_rowMaskR {w p : Word} (h : w &&& 0xFE00707F#32 = p) :
    funct7Of w = funct7Of p ∧ funct3Of w = funct3Of p ∧ opcodeOf w = opcodeOf p := by
  subst h
  refine ⟨?_, ?_, ?_⟩ <;>
  · apply BitVec.eq_of_getLsbD_eq
    intro i hi
    simp only [funct7Of, funct3Of, opcodeOf, BitVec.getLsbD_extractLsb', BitVec.getLsbD_and]
    interval_cases i <;> simp

/-- The same for the mask of funct3 and opcode. -/
theorem fields_of_rowMask3 {w p : Word} (h : w &&& 0x0000707F#32 = p) :
    funct3Of w = funct3Of p ∧ opcodeOf w = opcodeOf p := by
  subst h
  refine ⟨?_, ?_⟩ <;>
  · apply BitVec.eq_of_getLsbD_eq
    intro i hi
    simp only [funct3Of, opcodeOf, BitVec.getLsbD_extractLsb', BitVec.getLsbD_and]
    interval_cases i <;> simp

/-- The same for the mask of the opcode. -/
theorem opcode_of_rowMaskJ {w p : Word} (h : w &&& 0x0000007F#32 = p) : opcodeOf w = opcodeOf p := by
  subst h
  apply BitVec.eq_of_getLsbD_eq
  intro i hi
  simp only [opcodeOf, BitVec.getLsbD_extractLsb', BitVec.getLsbD_and]
  interval_cases i <;> simp

/-! ## Immediates as signed integers (R66 to R69) -/

theorem immI_toInt (w : Word) : (immI w).toInt = (w.toNat / 2 ^ 20 % 2 ^ 11 : Nat) - (w.toNat / 2 ^ 31 * 2 ^ 11 : Nat) := by
  rw [immI, BitVec.toInt_signExtend_of_le (by omega), BitVec.toInt_eq_toNat_cond, extract_toNat]
  have := w.isLt
  split <;> omega

theorem immS_toInt (w : Word) : (immS w).toInt =
    (w.toNat / 2 ^ 25 % 2 ^ 6 * 2 ^ 5 + w.toNat / 2 ^ 7 % 2 ^ 5 : Nat) - (w.toNat / 2 ^ 31 * 2 ^ 11 : Nat) := by
  rw [immS, BitVec.toInt_signExtend_of_le (by omega), BitVec.toInt_eq_toNat_cond]
  simp only [append_toNat, extract_toNat]
  have hd : w.toNat / 2 ^ 25 / 2 ^ 6 = w.toNat / 2 ^ 31 := Nat.div_div_eq_div_mul ..
  have := w.isLt
  split <;> omega

theorem immB_toInt (w : Word) : (immB w).toInt =
    (w.toNat / 2 ^ 7 % 2 * 2 ^ 11 + w.toNat / 2 ^ 25 % 2 ^ 6 * 2 ^ 5 + w.toNat / 2 ^ 8 % 2 ^ 4 * 2 : Nat) -
      (w.toNat / 2 ^ 31 * 2 ^ 12 : Nat) := by
  rw [immB, BitVec.toInt_signExtend_of_le (by omega), BitVec.toInt_eq_toNat_cond]
  simp only [append_toNat, extract_toNat]
  have h0 : (0#1).toNat = 0 := rfl
  have := w.isLt
  split <;> omega

theorem immJ_standard_toInt (w : Word) : (immJ .standard w).toInt =
    (w.toNat / 2 ^ 12 % 2 ^ 8 * 2 ^ 12 + w.toNat / 2 ^ 20 % 2 * 2 ^ 11 + w.toNat / 2 ^ 21 % 2 ^ 10 * 2 : Nat) -
      (w.toNat / 2 ^ 31 * 2 ^ 20 : Nat) := by
  rw [immJ, BitVec.toInt_signExtend_of_le (by omega), BitVec.toInt_eq_toNat_cond]
  simp only [append_toNat, extract_toNat]
  have h0 : (0#1).toNat = 0 := rfl
  have := w.isLt
  split <;> omega

theorem immJ_literal_toNat (w : Word) : (immJ .literal w).toNat =
    w.toNat / 2 ^ 12 % 2 ^ 8 * 2 ^ 12 + w.toNat / 2 ^ 20 % 2 * 2 ^ 11 + w.toNat / 2 ^ 21 % 2 ^ 10 * 2 + w.toNat / 2 ^ 31 := by
  rw [immJ, BitVec.toNat_setWidth, Nat.mod_eq_of_lt (Nat.lt_of_lt_of_le (BitVec.isLt _) (by decide))]
  simp only [append_toNat, extract_toNat]
  have := w.isLt
  omega

/-! ## Encoders as sums of fields (R61 to R65) -/

theorem encodeR_toNat (f7 : BitVec 7) (f3 : BitVec 3) (rd rs1 rs2 : RegId) : (encodeR f7 f3 rd rs1 rs2).toNat =
    f7.toNat * 2 ^ 25 + rs2.val * 2 ^ 20 + rs1.val * 2 ^ 15 + f3.toNat * 2 ^ 12 + rd.val * 2 ^ 7 + opR.toNat := by
  unfold encodeR
  simp only [append_toNat, regBits_toNat]
  omega

theorem encodeI_toNat (op : BitVec 7) (f3 : BitVec 3) (rd rs1 : RegId) (imm : Word) :
    (encodeI op f3 rd rs1 imm).toNat =
      imm.toNat % 2 ^ 12 * 2 ^ 20 + rs1.val * 2 ^ 15 + f3.toNat * 2 ^ 12 + rd.val * 2 ^ 7 + op.toNat := by
  unfold encodeI
  simp only [append_toNat, regBits_toNat, extract_toNat]
  omega

theorem encodeS_toNat (f3 : BitVec 3) (rs1 rs2 : RegId) (imm : Word) : (encodeS f3 rs1 rs2 imm).toNat =
    imm.toNat / 2 ^ 5 % 2 ^ 7 * 2 ^ 25 + rs2.val * 2 ^ 20 + rs1.val * 2 ^ 15 + f3.toNat * 2 ^ 12 +
      imm.toNat % 2 ^ 5 * 2 ^ 7 + opStore.toNat := by
  unfold encodeS
  simp only [append_toNat, regBits_toNat, extract_toNat]
  omega

theorem encodeB_toNat (f3 : BitVec 3) (rs1 rs2 : RegId) (imm : Word) : (encodeB f3 rs1 rs2 imm).toNat =
    imm.toNat / 2 ^ 12 % 2 * 2 ^ 31 + imm.toNat / 2 ^ 5 % 2 ^ 6 * 2 ^ 25 + rs2.val * 2 ^ 20 + rs1.val * 2 ^ 15 +
      f3.toNat * 2 ^ 12 + imm.toNat / 2 % 2 ^ 4 * 2 ^ 8 + imm.toNat / 2 ^ 11 % 2 * 2 ^ 7 + opBranch.toNat := by
  unfold encodeB
  simp only [append_toNat, regBits_toNat, extract_toNat]
  omega

/-- The bit of a JAL immediate that `inst[31]` carries in each reading (R69). -/
def jTopBit (m : JImmDecode) (imm : Word) : Nat :=
  match m with
  | .standard => imm.toNat / 2 ^ 20 % 2
  | .literal => imm.toNat % 2

theorem jTopBit_lt (m : JImmDecode) (imm : Word) : jTopBit m imm < 2 := by
  cases m <;> exact Nat.mod_lt _ (by decide)

theorem encodeJ_toNat (m : JImmDecode) (rd : RegId) (imm : Word) : (encodeJ m rd imm).toNat =
    jTopBit m imm * 2 ^ 31 + imm.toNat / 2 % 2 ^ 10 * 2 ^ 21 + imm.toNat / 2 ^ 11 % 2 * 2 ^ 20 +
      imm.toNat / 2 ^ 12 % 2 ^ 8 * 2 ^ 12 + rd.val * 2 ^ 7 + opJal.toNat := by
  cases m <;>
  · simp only [encodeJ, append_toNat, regBits_toNat, extract_toNat, jTopBit]
    omega

/-! ## Each field of each encoded format -/

/-- Reads a field off a sum of fields: the encoders' equation, then arithmetic. -/
theorem fields_encodeR (f7 : BitVec 7) (f3 : BitVec 3) (rd rs1 rs2 : RegId) :
    opcodeOf (encodeR f7 f3 rd rs1 rs2) = opR ∧ funct3Of (encodeR f7 f3 rd rs1 rs2) = f3 ∧
    funct7Of (encodeR f7 f3 rd rs1 rs2) = f7 ∧ rdOf (encodeR f7 f3 rd rs1 rs2) = rd ∧
    rs1Of (encodeR f7 f3 rd rs1 rs2) = rs1 ∧ rs2Of (encodeR f7 f3 rd rs1 rs2) = rs2 := by
  have h7 := f7.isLt
  have h3 := f3.isLt
  have hop : opR.toNat = 51 := rfl
  refine ⟨BitVec.eq_of_toNat_eq ?_, BitVec.eq_of_toNat_eq ?_, BitVec.eq_of_toNat_eq ?_, Fin.ext ?_, Fin.ext ?_, Fin.ext ?_⟩
  · rw [opcodeOf_toNat, encodeR_toNat]; omega
  · rw [funct3Of_toNat, encodeR_toNat]; omega
  · rw [funct7Of_toNat, encodeR_toNat]; omega
  · rw [rdOf_val, encodeR_toNat]; omega
  · rw [rs1Of_val, encodeR_toNat]; omega
  · rw [rs2Of_val, encodeR_toNat]; omega

theorem fields_encodeI (op : BitVec 7) (f3 : BitVec 3) (rd rs1 : RegId) (imm : Word) :
    opcodeOf (encodeI op f3 rd rs1 imm) = op ∧ funct3Of (encodeI op f3 rd rs1 imm) = f3 ∧
    rdOf (encodeI op f3 rd rs1 imm) = rd ∧ rs1Of (encodeI op f3 rd rs1 imm) = rs1 := by
  have h7 := op.isLt
  have h3 := f3.isLt
  refine ⟨BitVec.eq_of_toNat_eq ?_, BitVec.eq_of_toNat_eq ?_, Fin.ext ?_, Fin.ext ?_⟩
  · rw [opcodeOf_toNat, encodeI_toNat]; omega
  · rw [funct3Of_toNat, encodeI_toNat]; omega
  · rw [rdOf_val, encodeI_toNat]; omega
  · rw [rs1Of_val, encodeI_toNat]; omega

theorem fields_encodeS (f3 : BitVec 3) (rs1 rs2 : RegId) (imm : Word) :
    opcodeOf (encodeS f3 rs1 rs2 imm) = opStore ∧ funct3Of (encodeS f3 rs1 rs2 imm) = f3 ∧
    rs1Of (encodeS f3 rs1 rs2 imm) = rs1 ∧ rs2Of (encodeS f3 rs1 rs2 imm) = rs2 := by
  have h3 := f3.isLt
  have hop : opStore.toNat = 35 := rfl
  have e := encodeS_toNat f3 rs1 rs2 imm
  have ha : imm.toNat / 2 ^ 5 % 2 ^ 7 < 2 ^ 7 := Nat.mod_lt _ (by decide)
  have hb : imm.toNat % 2 ^ 5 < 2 ^ 5 := Nat.mod_lt _ (by decide)
  generalize imm.toNat / 2 ^ 5 % 2 ^ 7 = a at e ha
  generalize imm.toNat % 2 ^ 5 = b at e hb
  refine ⟨BitVec.eq_of_toNat_eq ?_, BitVec.eq_of_toNat_eq ?_, Fin.ext ?_, Fin.ext ?_⟩
  · rw [opcodeOf_toNat, e]; omega
  · rw [funct3Of_toNat, e]; omega
  · rw [rs1Of_val, e]; omega
  · rw [rs2Of_val, e]; omega

theorem fields_encodeB (f3 : BitVec 3) (rs1 rs2 : RegId) (imm : Word) :
    opcodeOf (encodeB f3 rs1 rs2 imm) = opBranch ∧ funct3Of (encodeB f3 rs1 rs2 imm) = f3 ∧
    rs1Of (encodeB f3 rs1 rs2 imm) = rs1 ∧ rs2Of (encodeB f3 rs1 rs2 imm) = rs2 := by
  have h3 := f3.isLt
  have hop : opBranch.toNat = 99 := rfl
  have e := encodeB_toNat f3 rs1 rs2 imm
  have ha : imm.toNat / 2 ^ 12 % 2 < 2 := Nat.mod_lt _ (by decide)
  have hb : imm.toNat / 2 ^ 5 % 2 ^ 6 < 2 ^ 6 := Nat.mod_lt _ (by decide)
  have hc : imm.toNat / 2 % 2 ^ 4 < 2 ^ 4 := Nat.mod_lt _ (by decide)
  have hd : imm.toNat / 2 ^ 11 % 2 < 2 := Nat.mod_lt _ (by decide)
  generalize imm.toNat / 2 ^ 12 % 2 = a at e ha
  generalize imm.toNat / 2 ^ 5 % 2 ^ 6 = b at e hb
  generalize imm.toNat / 2 % 2 ^ 4 = c at e hc
  generalize imm.toNat / 2 ^ 11 % 2 = d at e hd
  refine ⟨BitVec.eq_of_toNat_eq ?_, BitVec.eq_of_toNat_eq ?_, Fin.ext ?_, Fin.ext ?_⟩
  · rw [opcodeOf_toNat, e]; omega
  · rw [funct3Of_toNat, e]; omega
  · rw [rs1Of_val, e]; omega
  · rw [rs2Of_val, e]; omega

theorem fields_encodeJ (m : JImmDecode) (rd : RegId) (imm : Word) :
    opcodeOf (encodeJ m rd imm) = opJal ∧ rdOf (encodeJ m rd imm) = rd := by
  have hop : opJal.toNat = 111 := rfl
  have e := encodeJ_toNat m rd imm
  have ha := jTopBit_lt m imm
  have hb : imm.toNat / 2 % 2 ^ 10 < 2 ^ 10 := Nat.mod_lt _ (by decide)
  have hc : imm.toNat / 2 ^ 11 % 2 < 2 := Nat.mod_lt _ (by decide)
  have hd : imm.toNat / 2 ^ 12 % 2 ^ 8 < 2 ^ 8 := Nat.mod_lt _ (by decide)
  generalize jTopBit m imm = a at e ha
  generalize imm.toNat / 2 % 2 ^ 10 = b at e hb
  generalize imm.toNat / 2 ^ 11 % 2 = c at e hc
  generalize imm.toNat / 2 ^ 12 % 2 ^ 8 = d at e hd
  refine ⟨BitVec.eq_of_toNat_eq ?_, Fin.ext ?_⟩
  · rw [opcodeOf_toNat, e]; omega
  · rw [rdOf_val, e]; omega

/-! ## Each encoded immediate, read back -/

theorem immI_encodeI (op : BitVec 7) (f3 : BitVec 3) (rd rs1 : RegId) {imm : Word} (h : fitsSigned 12 imm = true) :
    immI (encodeI op f3 rd rs1 imm) = imm := by
  have h7 := op.isLt
  have h3 := f3.isLt
  have hi := imm.isLt
  rw [fitsSigned, decide_eq_true_eq] at h
  apply BitVec.eq_of_toInt_eq
  rw [immI_toInt, encodeI_toNat]
  rw [BitVec.toInt_eq_toNat_cond] at h ⊢
  norm_num at h
  split <;> split at h <;> omega

/-- The digits of an S-type sum that the immediate is read from. -/
theorem digitsS {w a b r2 r1 f op : Nat} (_ha : a < 2 ^ 7) (hb : b < 2 ^ 5) (h2 : r2 < 32) (h1 : r1 < 32) (hf : f < 8)
    (ho : op < 128) (e : w = a * 2 ^ 25 + r2 * 2 ^ 20 + r1 * 2 ^ 15 + f * 2 ^ 12 + b * 2 ^ 7 + op) :
    w / 2 ^ 25 % 2 ^ 6 = a % 2 ^ 6 ∧ w / 2 ^ 7 % 2 ^ 5 = b ∧ w / 2 ^ 31 = a / 2 ^ 6 := by
  have e1 : w / 2 ^ 25 = a := by omega
  have e2 : w / 2 ^ 31 = w / 2 ^ 25 / 2 ^ 6 := (Nat.div_div_eq_div_mul w (2 ^ 25) (2 ^ 6)).symm
  rw [e2, e1]
  exact ⟨rfl, by omega, rfl⟩

/-- The digits of a B-type sum that the immediate is read from. -/
theorem digitsB {w a b r2 r1 f c d op : Nat} (_ha : a < 2) (hb : b < 2 ^ 6) (h2 : r2 < 32) (h1 : r1 < 32) (hf : f < 8)
    (hc : c < 2 ^ 4) (hd : d < 2) (ho : op < 128)
    (e : w = a * 2 ^ 31 + b * 2 ^ 25 + r2 * 2 ^ 20 + r1 * 2 ^ 15 + f * 2 ^ 12 + c * 2 ^ 8 + d * 2 ^ 7 + op) :
    w / 2 ^ 7 % 2 = d ∧ w / 2 ^ 25 % 2 ^ 6 = b ∧ w / 2 ^ 8 % 2 ^ 4 = c ∧ w / 2 ^ 31 = a := by
  refine ⟨?_, ?_, ?_, ?_⟩ <;> omega

/-- The digits of a J-type sum that the immediate is read from. -/
theorem digitsJ {w a b c d r op : Nat} (_ha : a < 2) (hb : b < 2 ^ 10) (hc : c < 2) (hd : d < 2 ^ 8) (hr : r < 32)
    (ho : op < 128) (e : w = a * 2 ^ 31 + b * 2 ^ 21 + c * 2 ^ 20 + d * 2 ^ 12 + r * 2 ^ 7 + op) :
    w / 2 ^ 12 % 2 ^ 8 = d ∧ w / 2 ^ 20 % 2 = c ∧ w / 2 ^ 21 % 2 ^ 10 = b ∧ w / 2 ^ 31 = a := by
  refine ⟨?_, ?_, ?_, ?_⟩ <;> omega

/-- The scattered digits of an even B immediate in range make up its signed value (R64, R68). -/
theorem recomposeB {x : Nat} (he : x % 2 = 0) (hr : x < 2 ^ 12 ∨ 2 ^ 32 - 2 ^ 12 ≤ x ∧ x < 2 ^ 32) :
    ((x / 2 ^ 11 % 2 * 2 ^ 11 + x / 2 ^ 5 % 2 ^ 6 * 2 ^ 5 + x / 2 % 2 ^ 4 * 2 : Nat) : Int) - (x / 2 ^ 12 % 2 * 2 ^ 12 : Nat) =
      if 2 * x < 2 ^ 32 then (x : Int) else x - 4294967296 := by
  have h1 : x / 2 / 2 ^ 4 = x / 2 ^ 5 := Nat.div_div_eq_div_mul x 2 (2 ^ 4)
  have h2 : x / 2 ^ 5 / 2 ^ 6 = x / 2 ^ 11 := Nat.div_div_eq_div_mul x (2 ^ 5) (2 ^ 6)
  have h3 : x / 2 ^ 11 / 2 = x / 2 ^ 12 := Nat.div_div_eq_div_mul x (2 ^ 11) 2
  have h4 : x / 2 ^ 11 % 2 * 2 ^ 11 + x / 2 ^ 5 % 2 ^ 6 * 2 ^ 5 + x / 2 % 2 ^ 4 * 2 + x / 2 ^ 12 * 2 ^ 12 = x := by omega
  clear h1 h2 h3
  split <;> omega

/-- The scattered digits of an even standard J immediate in range make up its signed value (R65, R69). -/
theorem recomposeJ {x : Nat} (he : x % 2 = 0) (hr : x < 2 ^ 20 ∨ 2 ^ 32 - 2 ^ 20 ≤ x ∧ x < 2 ^ 32) :
    ((x / 2 ^ 12 % 2 ^ 8 * 2 ^ 12 + x / 2 ^ 11 % 2 * 2 ^ 11 + x / 2 % 2 ^ 10 * 2 : Nat) : Int) - (x / 2 ^ 20 % 2 * 2 ^ 20 : Nat) =
      if 2 * x < 2 ^ 32 then (x : Int) else x - 4294967296 := by
  have h1 : x / 2 / 2 ^ 10 = x / 2 ^ 11 := Nat.div_div_eq_div_mul x 2 (2 ^ 10)
  have h2 : x / 2 ^ 11 / 2 = x / 2 ^ 12 := Nat.div_div_eq_div_mul x (2 ^ 11) 2
  have h3 : x / 2 ^ 12 / 2 ^ 8 = x / 2 ^ 20 := Nat.div_div_eq_div_mul x (2 ^ 12) (2 ^ 8)
  have h4 : x / 2 ^ 12 % 2 ^ 8 * 2 ^ 12 + x / 2 ^ 11 % 2 * 2 ^ 11 + x / 2 % 2 ^ 10 * 2 + x / 2 ^ 20 * 2 ^ 20 = x := by omega
  clear h1 h2 h3
  split <;> omega

/-- The digits of a literal J immediate make it up (R69). -/
theorem recomposeJ_literal {x : Nat} (hr : x < 2 ^ 20) :
    x / 2 ^ 12 % 2 ^ 8 * 2 ^ 12 + x / 2 ^ 11 % 2 * 2 ^ 11 + x / 2 % 2 ^ 10 * 2 + x % 2 = x := by
  have h1 : x / 2 / 2 ^ 10 = x / 2 ^ 11 := Nat.div_div_eq_div_mul x 2 (2 ^ 10)
  have h2 : x / 2 ^ 11 / 2 = x / 2 ^ 12 := Nat.div_div_eq_div_mul x (2 ^ 11) 2
  omega

/-- A signed range as a range of the pattern (R19). -/
theorem toNat_of_fitsSigned {n : Nat} {v : Word} (hn : n ≤ 31) (h : fitsSigned (n + 1) v = true) :
    v.toNat < 2 ^ n ∨ 2 ^ 32 - 2 ^ n ≤ v.toNat ∧ v.toNat < 2 ^ 32 := by
  rw [fitsSigned, decide_eq_true_eq, Nat.add_sub_cancel, BitVec.toInt_eq_toNat_cond] at h
  have hv := v.isLt
  have hp : (2 : Nat) ^ n ≤ 2 ^ 31 := Nat.pow_le_pow_right (by decide) hn
  have hc : ((2 : Int) ^ n) = ((2 ^ n : Nat) : Int) := by push_cast; rfl
  rw [hc] at h
  split at h <;> omega

theorem immS_encodeS (f3 : BitVec 3) (rs1 rs2 : RegId) {imm : Word} (h : fitsSigned 12 imm = true) :
    immS (encodeS f3 rs1 rs2 imm) = imm := by
  have hi := imm.isLt
  obtain ⟨e1, e2, e3⟩ := digitsS (Nat.mod_lt _ (by decide)) (Nat.mod_lt _ (by decide)) rs2.isLt rs1.isLt f3.isLt
    opStore.isLt (encodeS_toNat f3 rs1 rs2 imm)
  rw [fitsSigned, decide_eq_true_eq] at h
  apply BitVec.eq_of_toInt_eq
  rw [immS_toInt, e1, e2, e3]
  rw [BitVec.toInt_eq_toNat_cond] at h ⊢
  norm_num at h
  split <;> split at h <;> omega

theorem immB_encodeB (f3 : BitVec 3) (rs1 rs2 : RegId) {imm : Word}
    (h : (fitsSigned 13 imm && isEven imm) = true) : immB (encodeB f3 rs1 rs2 imm) = imm := by
  obtain ⟨e1, e2, e3, e4⟩ := digitsB (Nat.mod_lt _ (by decide)) (Nat.mod_lt _ (by decide)) rs2.isLt rs1.isLt f3.isLt
    (Nat.mod_lt _ (by decide)) (Nat.mod_lt _ (by decide)) opBranch.isLt (encodeB_toNat f3 rs1 rs2 imm)
  rw [Bool.and_eq_true, isEven, decide_eq_true_eq] at h
  apply BitVec.eq_of_toInt_eq
  rw [immB_toInt, e1, e2, e3, e4, recomposeB h.2 (toNat_of_fitsSigned (by decide) h.1), BitVec.toInt_eq_toNat_cond]
  rfl

theorem immJ_encodeJ (m : JImmDecode) (rd : RegId) {imm : Word} (h : jImmWf m imm = true) :
    immJ m (encodeJ m rd imm) = imm := by
  obtain ⟨e1, e2, e3, e4⟩ := digitsJ (jTopBit_lt m imm) (Nat.mod_lt _ (by decide)) (Nat.mod_lt _ (by decide))
    (Nat.mod_lt _ (by decide)) rd.isLt opJal.isLt (encodeJ_toNat m rd imm)
  cases m with
  | standard =>
    rw [jImmWf, Bool.and_eq_true, isEven, decide_eq_true_eq] at h
    apply BitVec.eq_of_toInt_eq
    rw [immJ_standard_toInt, e1, e2, e3, e4, jTopBit, recomposeJ h.2 (toNat_of_fitsSigned (by decide) h.1),
      BitVec.toInt_eq_toNat_cond]
    rfl
  | literal =>
    rw [jImmWf, decide_eq_true_eq] at h
    apply BitVec.eq_of_toNat_eq
    rw [immJ_literal_toNat, e1, e2, e3, e4, jTopBit, recomposeJ_literal h]

end Sys2Proof
end

