-- ==== Sys2Proof/Laws/State.lean ====
section
/-! SUPPORT. One lemma per field per update of the state, the laws of the register file, and the facts about reset. -/

namespace Sys2Proof.Machine

/-! ## setPc -/

@[simp] theorem State.setPc_config (s : State) (a : Word) : (s.setPc a).config = s.config := rfl
@[simp] theorem State.setPc_regs (s : State) (a : Word) : (s.setPc a).regs = s.regs := rfl
@[simp] theorem State.setPc_pc (s : State) (a : Word) : (s.setPc a).pc = a := rfl
@[simp] theorem State.setPc_mem (s : State) (a : Word) : (s.setPc a).mem = s.mem := rfl
@[simp] theorem State.setPc_run (s : State) (a : Word) : (s.setPc a).run = s.run := rfl
@[simp] theorem State.setPc_trace (s : State) (a : Word) : (s.setPc a).trace = s.trace := rfl
@[simp] theorem State.setPc_reg (s : State) (a : Word) (r : RegId) : (s.setPc a).reg r = s.reg r := rfl

/-! ## advance -/

@[simp] theorem State.advance_config (s : State) : s.advance.config = s.config := rfl
@[simp] theorem State.advance_regs (s : State) : s.advance.regs = s.regs := rfl
@[simp] theorem State.advance_pc (s : State) : s.advance.pc = s.pc + 4#32 := rfl
@[simp] theorem State.advance_mem (s : State) : s.advance.mem = s.mem := rfl
@[simp] theorem State.advance_run (s : State) : s.advance.run = s.run := rfl
@[simp] theorem State.advance_trace (s : State) : s.advance.trace = s.trace := rfl
@[simp] theorem State.advance_reg (s : State) (r : RegId) : s.advance.reg r = s.reg r := rfl

/-! ## setMem -/

@[simp] theorem State.setMem_config (s : State) (m : Memory) : (s.setMem m).config = s.config := rfl
@[simp] theorem State.setMem_regs (s : State) (m : Memory) : (s.setMem m).regs = s.regs := rfl
@[simp] theorem State.setMem_pc (s : State) (m : Memory) : (s.setMem m).pc = s.pc := rfl
@[simp] theorem State.setMem_mem (s : State) (m : Memory) : (s.setMem m).mem = m := rfl
@[simp] theorem State.setMem_run (s : State) (m : Memory) : (s.setMem m).run = s.run := rfl
@[simp] theorem State.setMem_trace (s : State) (m : Memory) : (s.setMem m).trace = s.trace := rfl

/-! ## setRun and raise -/

@[simp] theorem State.setRun_config (s : State) (r : RunState) : (s.setRun r).config = s.config := rfl
@[simp] theorem State.setRun_regs (s : State) (r : RunState) : (s.setRun r).regs = s.regs := rfl
@[simp] theorem State.setRun_pc (s : State) (r : RunState) : (s.setRun r).pc = s.pc := rfl
@[simp] theorem State.setRun_mem (s : State) (r : RunState) : (s.setRun r).mem = s.mem := rfl
@[simp] theorem State.setRun_run (s : State) (r : RunState) : (s.setRun r).run = r := rfl
@[simp] theorem State.setRun_trace (s : State) (r : RunState) : (s.setRun r).trace = s.trace := rfl

@[simp] theorem State.raise_config (s : State) (f : RunFault) : (s.raise f).config = s.config := rfl
@[simp] theorem State.raise_regs (s : State) (f : RunFault) : (s.raise f).regs = s.regs := rfl
@[simp] theorem State.raise_pc (s : State) (f : RunFault) : (s.raise f).pc = s.pc := rfl
@[simp] theorem State.raise_mem (s : State) (f : RunFault) : (s.raise f).mem = s.mem := rfl
@[simp] theorem State.raise_run (s : State) (f : RunFault) : (s.raise f).run = .faulted f s.pc := rfl
@[simp] theorem State.raise_trace (s : State) (f : RunFault) : (s.raise f).trace = s.trace := rfl

/-! ## record and complete -/

@[simp] theorem State.record_config (s : State) : s.record.config = s.config := rfl
@[simp] theorem State.record_regs (s : State) : s.record.regs = s.regs := rfl
@[simp] theorem State.record_pc (s : State) : s.record.pc = s.pc := rfl
@[simp] theorem State.record_mem (s : State) : s.record.mem = s.mem := rfl
@[simp] theorem State.record_run (s : State) : s.record.run = s.run := rfl
@[simp] theorem State.record_trace (s : State) :
    s.record.trace = s.trace ++ [{ pc := s.pc, regs := s.regs }] := rfl

@[simp] theorem RunState.isFaulted_running : RunState.running.isFaulted = false := rfl
@[simp] theorem RunState.isFaulted_halted : RunState.halted.isFaulted = false := rfl
@[simp] theorem RunState.isFaulted_faulted (f : RunFault) (p : Word) : (RunState.faulted f p).isFaulted = true := rfl

theorem RunState.isFaulted_iff (r : RunState) : r.isFaulted = true ↔ ∃ f p, r = .faulted f p := by
  cases r <;> simp

theorem State.complete_of_faulted {s : State} (h : s.run.isFaulted = true) : s.complete = s := by
  simp [State.complete, h]

theorem State.complete_of_not_faulted {s : State} (h : s.run.isFaulted = false) : s.complete = s.record := by
  simp [State.complete, h]

@[simp] theorem State.complete_config (s : State) : s.complete.config = s.config := by
  unfold State.complete; split <;> rfl
@[simp] theorem State.complete_regs (s : State) : s.complete.regs = s.regs := by
  unfold State.complete; split <;> rfl
@[simp] theorem State.complete_pc (s : State) : s.complete.pc = s.pc := by
  unfold State.complete; split <;> rfl
@[simp] theorem State.complete_mem (s : State) : s.complete.mem = s.mem := by
  unfold State.complete; split <;> rfl
@[simp] theorem State.complete_run (s : State) : s.complete.run = s.run := by
  unfold State.complete; split <;> rfl

/-! ## The register file -/

@[simp] theorem State.setReg_config (s : State) (r : RegId) (v : Word) : (s.setReg r v).config = s.config := by
  unfold State.setReg; split <;> rfl
@[simp] theorem State.setReg_pc (s : State) (r : RegId) (v : Word) : (s.setReg r v).pc = s.pc := by
  unfold State.setReg; split <;> rfl
@[simp] theorem State.setReg_mem (s : State) (r : RegId) (v : Word) : (s.setReg r v).mem = s.mem := by
  unfold State.setReg; split <;> rfl
@[simp] theorem State.setReg_run (s : State) (r : RegId) (v : Word) : (s.setReg r v).run = s.run := by
  unfold State.setReg; split <;> rfl
@[simp] theorem State.setReg_trace (s : State) (r : RegId) (v : Word) : (s.setReg r v).trace = s.trace := by
  unfold State.setReg; split <;> rfl

/-- A read of x0 gives 0 (R23). -/
@[simp] theorem State.reg_zero (s : State) : s.reg 0 = 0#32 := rfl

/-- A write to x0 is discarded (R23). -/
@[simp] theorem State.setReg_zero (s : State) (v : Word) : s.setReg 0 v = s := rfl

theorem State.reg_of_ne_zero {s : State} {r : RegId} (h : r ≠ 0) : s.reg r = s.regs.get r := by
  simp [State.reg, h]

/-- Two indices of a register file, compared. -/
theorem vector_get_set (g : Vector Word 32) (r q : Fin 32) (v : Word) :
    (g.set r.val v r.isLt).get q = if q = r then v else g.get q := by
  have hq : (g.set r.val v r.isLt).get q = (g.set r.val v r.isLt)[q.val] := rfl
  have hg : g.get q = g[q.val] := rfl
  rw [hq, hg, Vector.getElem_set]
  by_cases h : r = q
  · subst h; simp
  · have h1 : ¬ r.val = q.val := fun e => h (Fin.ext e)
    have h2 : ¬ q = r := fun e => h e.symm
    rw [if_neg h1, if_neg h2]

/-- The write port: the named register, unless it is x0, and no other (R23, R25). -/
theorem State.setReg_get (s : State) (r q : RegId) (v : Word) :
    (s.setReg r v).regs.get q = if q = r ∧ r ≠ 0 then v else s.regs.get q := by
  unfold State.setReg
  by_cases h : r = 0
  · simp [h]
  · rw [if_neg h]
    simp only [vector_get_set, ne_eq, h, not_false_eq_true, and_true]

/-- The stored x0 never changes (R23). -/
@[simp] theorem State.setReg_get_zero (s : State) (r : RegId) (v : Word) :
    (s.setReg r v).regs.get 0 = s.regs.get 0 := by
  rw [State.setReg_get]
  split
  · next h => exact absurd h.1.symm h.2
  · rfl

theorem State.reg_setReg (s : State) (r q : RegId) (v : Word) :
    (s.setReg r v).reg q = if q = r ∧ r ≠ 0 then v else s.reg q := by
  by_cases hq : q = 0
  · subst hq
    rw [State.reg_zero, State.reg_zero]
    split
    · next h => exact absurd h.1.symm h.2
    · rfl
  · rw [State.reg_of_ne_zero hq, State.reg_of_ne_zero hq, State.setReg_get]

/-! ## Reset -/

theorem resetRegs_get (r : RegId) : resetRegs.get r = if r = 2 then spReset else 0#32 := by
  revert r; decide

@[simp] theorem State.launch_config (c : Config) : (State.launch c).config = c := rfl
@[simp] theorem State.launch_regs (c : Config) : (State.launch c).regs = resetRegs := rfl
@[simp] theorem State.launch_pc (c : Config) : (State.launch c).pc = pcReset := rfl
@[simp] theorem State.launch_mem (c : Config) : (State.launch c).mem = resetMemory := rfl
@[simp] theorem State.launch_run (c : Config) : (State.launch c).run = .running := rfl
@[simp] theorem State.launch_trace (c : Config) : (State.launch c).trace = [] := rfl

theorem State.reset_eq_launch : State.reset = State.launch { prog := [] } := rfl

end Sys2Proof.Machine
end

