-- ==== Sys2Proof/Laws/Memory.lean ====
section
/-! SUPPORT. The laws of the address translator, the scratch map and the data space: what a read after a write gives, and
that every memory operation keeps the canonical form. -/

namespace Sys2Proof.Machine

/-! ## The translator (R46) -/

theorem translateAddress_of_resident {ea : Word} (h : isResident ea.toNat) :
    ∃ k : Fin 32, translateAddress ea = .resident k ∧ ea.toNat = resBase + resStep * k.val := by
  have hk : (ea.toNat - resBase) / resStep < 32 := by
    simp only [isResident, resBase, resLast, resStep] at h ⊢
    omega
  refine ⟨⟨(ea.toNat - resBase) / resStep, hk⟩, by rw [translateAddress, dif_pos h], ?_⟩
  simp only [isResident, resBase, resLast, resStep] at h ⊢
  omega

theorem translateAddress_of_not_resident {ea : Word} (h : ¬ isResident ea.toNat) : translateAddress ea = .scratch ea := by
  rw [translateAddress, dif_neg h]

/-- Everything the translator can answer. -/
theorem translateAddress_cases (ea : Word) :
    (∃ k : Fin 32, translateAddress ea = .resident k ∧ isResident ea.toNat ∧ ea.toNat = resBase + resStep * k.val) ∨
      (translateAddress ea = .scratch ea ∧ ¬ isResident ea.toNat) := by
  by_cases h : isResident ea.toNat
  · obtain ⟨k, hk, he⟩ := translateAddress_of_resident h
    exact .inl ⟨k, hk, h, he⟩
  · exact .inr ⟨translateAddress_of_not_resident h, h⟩

theorem translateAddress_resident_inj {a b : Word} {k : Fin 32} (ha : translateAddress a = .resident k)
    (hb : translateAddress b = .resident k) : a = b := by
  obtain ⟨ka, hka, -, ea⟩ | ⟨h, -⟩ := translateAddress_cases a
  · obtain ⟨kb, hkb, -, eb⟩ | ⟨h, -⟩ := translateAddress_cases b
    · rw [hka, Location.resident.injEq] at ha
      rw [hkb, Location.resident.injEq] at hb
      subst ha; subst hb
      exact BitVec.eq_of_toNat_eq (ea.trans eb.symm)
    · rw [h] at hb; cases hb
  · rw [h] at ha; cases ha

/-! ## The scratch map (R44) -/

@[simp] theorem scratchLookup_nil (a : Nat) : scratchLookup [] a = none := rfl

theorem scratchLookup_insert (l : List (Nat × Word)) (a b : Nat) (v : Word) :
    scratchLookup (scratchInsert l a v) b = if a = b then some v else scratchLookup l b := by
  induction l with
  | nil => simp [scratchInsert, scratchLookup]
  | cons e rest ih =>
    obtain ⟨k, x⟩ := e
    unfold scratchInsert
    split
    · simp only [scratchLookup]
    · split
      · next h1 h2 =>
        subst h2
        simp only [scratchLookup]
        split <;> rfl
      · next h1 h2 =>
        simp only [scratchLookup, ih]
        by_cases hk : k = b
        · subst hk; simp [h2]
        · simp [hk]

theorem mem_scratchInsert {l : List (Nat × Word)} {a : Nat} {v : Word} {e : Nat × Word}
    (h : e ∈ scratchInsert l a v) : e = (a, v) ∨ e ∈ l := by
  induction l with
  | nil => simpa [scratchInsert] using h
  | cons d rest ih =>
    obtain ⟨k, x⟩ := d
    unfold scratchInsert at h
    split at h
    · simpa using h
    · split at h
      · rcases List.mem_cons.mp h with h | h
        · exact .inl h
        · exact .inr (List.mem_cons_of_mem _ h)
      · rcases List.mem_cons.mp h with h | h
        · exact .inr (h ▸ List.mem_cons_self)
        · exact (ih h).imp id (List.mem_cons_of_mem _)

theorem scratchInsert_pairwise {l : List (Nat × Word)} (a : Nat) (v : Word)
    (h : (l.map Prod.fst).Pairwise (· < ·)) : ((scratchInsert l a v).map Prod.fst).Pairwise (· < ·) := by
  induction l with
  | nil => simp [scratchInsert]
  | cons e rest ih =>
    obtain ⟨k, x⟩ := e
    rw [List.map_cons, List.pairwise_cons] at h
    unfold scratchInsert
    split
    · next hlt =>
      rw [List.map_cons, List.map_cons, List.pairwise_cons, List.pairwise_cons]
      refine ⟨?_, h⟩
      intro b hb
      rcases List.mem_cons.mp hb with hb | hb
      · exact hb ▸ hlt
      · exact hlt.trans (h.1 b hb)
    · split
      · next hne heq =>
        subst heq
        rw [List.map_cons, List.pairwise_cons]
        exact h
      · next hnlt hne =>
        rw [List.map_cons, List.pairwise_cons]
        refine ⟨?_, ih h.2⟩
        intro b hb
        obtain ⟨d, hd, rfl⟩ := List.mem_map.mp hb
        rcases mem_scratchInsert hd with rfl | hd
        · exact lt_of_le_of_ne (not_lt.mp hnlt) (Ne.symm hne)
        · exact h.1 _ (List.mem_map_of_mem hd)

/-! ## Reads and writes (R47, R48) -/

theorem Memory.read_resident {m : Memory} {ea : Word} {k : Fin 32} (h : translateAddress ea = .resident k) :
    m.read ea = some (m.res.get k) := by
  simp [Memory.read, h]

theorem Memory.read_scratch {m : Memory} {ea a : Word} (h : translateAddress ea = .scratch a) :
    m.read ea = scratchLookup m.scratch a.toNat := by
  simp [Memory.read, h]

theorem Memory.write_resident {m : Memory} {ea v : Word} {k : Fin 32} (h : translateAddress ea = .resident k) :
    m.write ea v = { m with res := m.res.set k.val v k.isLt } := by
  simp [Memory.write, h]

theorem Memory.write_scratch {m : Memory} {ea v a : Word} (h : translateAddress ea = .scratch a) :
    m.write ea v = { m with scratch := scratchInsert m.scratch a.toNat v } := by
  simp [Memory.write, h]

/-- A read after a write: the written word at the same address, the old answer at every other one. -/
theorem Memory.read_write (m : Memory) (ea a v : Word) :
    (m.write ea v).read a = if a = ea then some v else m.read a := by
  obtain ⟨k, hk, -, -⟩ | ⟨hs, -⟩ := translateAddress_cases ea
  · rw [Memory.write_resident hk]
    by_cases ha : a = ea
    · subst ha
      rw [if_pos rfl, Memory.read_resident hk, vector_get_set, if_pos rfl]
    · rw [if_neg ha]
      obtain ⟨j, hj, -, -⟩ | ⟨hj, -⟩ := translateAddress_cases a
      · rw [Memory.read_resident hj, Memory.read_resident hj, vector_get_set, if_neg]
        rintro rfl
        exact ha (translateAddress_resident_inj hj hk)
      · rw [Memory.read_scratch hj, Memory.read_scratch hj]
  · rw [Memory.write_scratch hs]
    by_cases ha : a = ea
    · subst ha
      rw [if_pos rfl, Memory.read_scratch hs, scratchLookup_insert, if_pos rfl]
    · rw [if_neg ha]
      obtain ⟨j, hj, -, -⟩ | ⟨hj, -⟩ := translateAddress_cases a
      · rw [Memory.read_resident hj, Memory.read_resident hj]
      · rw [Memory.read_scratch hj, Memory.read_scratch hj, scratchLookup_insert, if_neg]
        intro h
        exact ha (BitVec.eq_of_toNat_eq h.symm)

theorem Memory.read_write_same (m : Memory) (ea v : Word) : (m.write ea v).read ea = some v := by
  rw [Memory.read_write, if_pos rfl]

theorem Memory.read_write_other {m : Memory} {ea a v : Word} (h : a ≠ ea) :
    (m.write ea v).read a = m.read a := by
  rw [Memory.read_write, if_neg h]

/-! ## The canonical form (R44) -/

/-- A write keeps the canonical form. -/
theorem Memory.write_wf {m : Memory} (h : m.wf) (ea v : Word) : (m.write ea v).wf := by
  obtain ⟨k, hk, -, -⟩ | ⟨hs, hr⟩ := translateAddress_cases ea
  · rw [Memory.write_resident hk]; exact h
  · rw [Memory.write_scratch hs]
    refine ⟨scratchInsert_pairwise _ _ h.1, ?_⟩
    intro e he
    rcases mem_scratchInsert he with rfl | he
    · exact ⟨ea.isLt, hr⟩
    · exact h.2 e he

theorem resetMemory_wf : resetMemory.wf := by simp [Memory.wf, resetMemory]

theorem State.launch_mem_wf (c : Config) : (State.launch c).mem.wf := resetMemory_wf

theorem State.reset_mem_wf : State.reset.mem.wf := resetMemory_wf

/-- In canonical form the scratch map answers exactly its entries. -/
theorem scratchLookup_eq_some_iff {l : List (Nat × Word)} (h : (l.map Prod.fst).Pairwise (· < ·)) (a : Nat) (v : Word) :
    scratchLookup l a = some v ↔ (a, v) ∈ l := by
  induction l with
  | nil => simp
  | cons e rest ih =>
    obtain ⟨k, x⟩ := e
    rw [List.map_cons, List.pairwise_cons] at h
    simp only [scratchLookup, List.mem_cons, Prod.mk.injEq]
    by_cases hk : k = a
    · subst hk
      have : (k, v) ∉ rest := fun hm => lt_irrefl _ (h.1 k (List.mem_map_of_mem hm))
      simp [this, eq_comm]
    · rw [if_neg hk, ih h.2]
      simp [Ne.symm hk]

/-- At reset a resident address reads 0 and every other address `none` (R41, R47). -/
theorem resetMemory_read (ea : Word) :
    resetMemory.read ea = if isResident ea.toNat then some 0#32 else none := by
  obtain ⟨k, hk, hr, -⟩ | ⟨hs, hr⟩ := translateAddress_cases ea
  · rw [Memory.read_resident hk, if_pos hr]
    have : ∀ k : Fin 32, (Vector.replicate 32 (0#32)).get k = 0#32 := by decide
    exact congrArg some (this k)
  · rw [Memory.read_scratch hs, if_neg hr]
    rfl

end Sys2Proof.Machine
end

