-- ==== Sys2Proof/Laws/Exec.lean ====
section
/-! SUPPORT. What executing one instruction can do, said once: it always answers a next state, of one of four shapes. -/

namespace Sys2Proof.Machine

/-- BEQ's three comparisons (R95). -/
theorem branchCompare_beq (a b imm : Word) :
    (a = b ∧ imm = 0#32 ∧ branchCompare .beq a b imm = .halt) ∨
    (a = b ∧ imm ≠ 0#32 ∧ branchCompare .beq a b imm = .taken) ∨ (a ≠ b ∧ branchCompare .beq a b imm = .notTaken) := by
  by_cases h : a = b
  · by_cases hi : imm = 0#32
    · exact .inl ⟨h, hi, if_pos ⟨h, hi⟩⟩
    · exact .inr (.inl ⟨h, hi, (if_neg fun c => hi c.2).trans (if_pos h)⟩)
  · exact .inr (.inr ⟨h, (if_neg fun c => h c.1).trans (if_neg h)⟩)

/-- BNE's two comparisons (R95). -/
theorem branchCompare_bne (a b imm : Word) :
    (a ≠ b ∧ branchCompare .bne a b imm = .taken) ∨ (a = b ∧ branchCompare .bne a b imm = .notTaken) := by
  by_cases h : a = b
  · exact .inr ⟨h, if_neg (not_not.mpr h)⟩
  · exact .inl ⟨h, if_pos h⟩

/-- What follows a comparison: a new pc, or BEQ's halt (R96, R97, R98). -/
theorem branch_cases (s : State) (op : BranchOp) (a b imm : Word) :
    (∃ pc', s.branch (branchCompare op a b imm) imm = s.setPc pc') ∨
      (op = .beq ∧ a = b ∧ imm = 0#32 ∧ s.branch (branchCompare op a b imm) imm = s.advance.setRun .halted) := by
  cases op with
  | beq =>
    obtain ⟨ha, hi, h⟩ | ⟨-, -, h⟩ | ⟨-, h⟩ := branchCompare_beq a b imm
    · exact .inr ⟨rfl, ha, hi, by rw [h]; rfl⟩
    · exact .inl ⟨_, by rw [h]; rfl⟩
    · exact .inl ⟨_, by rw [h]; rfl⟩
  | bne =>
    obtain ⟨-, h⟩ | ⟨-, h⟩ := branchCompare_bne a b imm
    · exact .inl ⟨_, by rw [h]; rfl⟩
    · exact .inl ⟨_, by rw [h]; rfl⟩

/-- Every executed instruction answers a next state: a fault taken (BLT, or LW under `fault`), a register write (to x0 when
the instruction writes none) with a new pc, SW's store, or BEQ's halt. -/
theorem exec_cases (i : Instr) (s : State) :
    (∃ f, exec i s = .next (s.raise f)) ∨
    (∃ rd v pc', exec i s = .next ((s.setReg rd v).setPc pc')) ∨
    (∃ rs1 rs2 imm, i = .sw rs1 rs2 imm ∧
      exec i s = .next (s.setMem (s.mem.write (effectiveAddress s rs1 imm) (s.reg rs2))).advance) ∨
    (∃ rs1 rs2, i = .beq rs1 rs2 0#32 ∧ s.reg rs1 = s.reg rs2 ∧ exec i s = .next (s.advance.setRun .halted)) := by
  cases i with
  | add rd rs1 rs2 => exact .inr (.inl ⟨rd, _, _, rfl⟩)
  | sub rd rs1 rs2 => exact .inr (.inl ⟨rd, _, _, rfl⟩)
  | slt rd rs1 rs2 => exact .inr (.inl ⟨rd, _, _, rfl⟩)
  | srl rd rs1 rs2 => exact .inr (.inl ⟨rd, _, _, rfl⟩)
  | or rd rs1 rs2 => exact .inr (.inl ⟨rd, _, _, rfl⟩)
  | and rd rs1 rs2 => exact .inr (.inl ⟨rd, _, _, rfl⟩)
  | addi rd rs1 imm => exact .inr (.inl ⟨rd, _, _, rfl⟩)
  | jalr rd rs1 imm => exact .inr (.inl ⟨rd, _, _, rfl⟩)
  | jal rd imm => exact .inr (.inl ⟨rd, _, _, rfl⟩)
  | blt rs1 rs2 imm => exact .inl ⟨_, rfl⟩
  | sw rs1 rs2 imm => exact .inr (.inr (.inl ⟨rs1, rs2, imm, rfl, rfl⟩))
  | lw rd rs1 imm =>
    simp only [exec, execLw]
    split
    · exact .inr (.inl ⟨rd, _, _, rfl⟩)
    · unfold loadUnmapped
      split
      · exact .inr (.inl ⟨0, 0#32, _, rfl⟩)
      · exact .inr (.inl ⟨rd, _, _, rfl⟩)
      · exact .inl ⟨_, rfl⟩
  | beq rs1 rs2 imm =>
    obtain ⟨pc', h⟩ | ⟨-, he, hi, h⟩ := branch_cases s .beq (s.reg rs1) (s.reg rs2) imm
    · exact .inr (.inl ⟨0, 0#32, pc', congrArg Host.Outcome.next h⟩)
    · exact .inr (.inr (.inr ⟨rs1, rs2, by rw [hi], he, congrArg Host.Outcome.next h⟩))
  | bne rs1 rs2 imm =>
    obtain ⟨pc', h⟩ | ⟨hb, -⟩ := branch_cases s .bne (s.reg rs1) (s.reg rs2) imm
    · exact .inr (.inl ⟨0, 0#32, pc', congrArg Host.Outcome.next h⟩)
    · cases hb

/-- The three answers of LW's open case (R91). -/
theorem loadUnmapped_cases (rd : RegId) (ea : Word) (s : State) :
    (s.config.lwUnmapped = .keep ∧ loadUnmapped rd ea s = s.advance) ∨
    (s.config.lwUnmapped = .zero ∧ loadUnmapped rd ea s = (s.setReg rd 0#32).advance) ∨
    (s.config.lwUnmapped = .fault ∧ loadUnmapped rd ea s = s.raise (.unmappedLoad ea)) := by
  unfold loadUnmapped
  cases h : s.config.lwUnmapped
  · exact .inl ⟨rfl, rfl⟩
  · exact .inr (.inl ⟨rfl, rfl⟩)
  · exact .inr (.inr ⟨rfl, rfl⟩)

/-- Executing never stops without a next state. -/
theorem exec_next (i : Instr) (s : State) : ∃ t, exec i s = .next t := by
  obtain ⟨_, h⟩ | ⟨_, _, _, h⟩ | ⟨_, _, _, -, h⟩ | ⟨_, _, -, -, h⟩ := exec_cases i s
  · exact ⟨_, h⟩
  · exact ⟨_, h⟩
  · exact ⟨_, h⟩
  · exact ⟨_, h⟩

end Sys2Proof.Machine
end

