-- ==== Sys2Proof/Laws/Fetch.lean ====
section
/-! SUPPORT. The laws of the program fetch and of placing a word in the program. -/

namespace Sys2Proof.Machine

theorem fetch_misaligned {prog : List Word} {pc : Word} (h : pc.toNat % 4 ≠ 0) :
    fetch prog pc = .fault .pcOutOfBounds := by
  simp [fetch, h]

theorem fetch_at_end {prog : List Word} {pc : Word} (h : pc.toNat = 4 * prog.length) :
    fetch prog pc = .fault .missingHalt := by
  simp [fetch, h]

theorem fetch_beyond {prog : List Word} {pc : Word} (h : 4 * prog.length < pc.toNat) :
    fetch prog pc = .fault .pcOutOfBounds := by
  unfold fetch
  split
  · rfl
  · rw [if_neg (by omega), List.getElem?_eq_none (by omega)]

theorem fetch_word {prog : List Word} {pc w : Word} (ha : pc.toNat % 4 = 0) (hw : prog[pc.toNat / 4]? = some w) :
    fetch prog pc = .word w := by
  have hl : pc.toNat / 4 < prog.length := (List.getElem?_eq_some_iff.mp hw).1
  unfold fetch
  rw [if_neg (by omega), if_neg (by omega), hw]

/-- A fetch that answers a word read it at an aligned pc inside the program (R38). -/
theorem fetch_eq_word {prog : List Word} {pc w : Word} (h : fetch prog pc = .word w) :
    pc.toNat % 4 = 0 ∧ prog[pc.toNat / 4]? = some w := by
  unfold fetch at h
  split at h
  · cases h
  · next ha =>
    split at h
    · cases h
    · split at h
      · next heq => cases h; exact ⟨not_not.mp ha, heq⟩
      · cases h

/-- A fetch that faults, and why (R38, R103). -/
theorem fetch_eq_fault {prog : List Word} {pc : Word} {f : RunFault} (h : fetch prog pc = .fault f) :
    (f = .pcOutOfBounds ∧ (pc.toNat % 4 ≠ 0 ∨ 4 * prog.length < pc.toNat)) ∨
      (f = .missingHalt ∧ pc.toNat = 4 * prog.length) := by
  unfold fetch at h
  split at h
  · next ha => cases h; exact .inl ⟨rfl, .inl ha⟩
  · split at h
    · next he => cases h; exact .inr ⟨rfl, he⟩
    · next he =>
      split at h
      · cases h
      · next hn =>
        cases h
        have := List.getElem?_eq_none_iff.mp hn
        exact .inl ⟨rfl, .inr (by omega)⟩

theorem placeWord_getElem? (prog : List Word) (n : Nat) (w : Word) : (placeWord prog n w)[n]? = some w := by
  induction n generalizing prog with
  | zero => cases prog <;> rfl
  | succ n ih => cases prog <;> simpa [placeWord] using ih _

theorem placeWord_length (prog : List Word) (n : Nat) (w : Word) :
    (placeWord prog n w).length = max prog.length (n + 1) := by
  induction n generalizing prog with
  | zero => cases prog <;> simp [placeWord]
  | succ n ih => cases prog <;> simp [placeWord, ih]

theorem alignedPc_toNat (pc : Word) : (alignedPc pc).toNat = 4 * (pc.toNat / 4) := by
  rw [alignedPc, BitVec.toNat_ofNat, Nat.mod_eq_of_lt]
  have := pc.isLt
  omega

end Sys2Proof.Machine
end

