-- ==== Sys2Proof/Laws/Step.lean ====
section
/-! SUPPORT. What one step can do, said once. -/

namespace Sys2Proof.Machine

@[simp] theorem finish_next (t : State) : finish (.next t) = .next t.complete := rfl

theorem step_of_halted {s : State} (h : s.run = .halted) : step s = .fault .stepAfterHalt := by
  simp [step, h]

theorem step_of_faulted {s : State} {f : RunFault} {p : Word} (h : s.run = .faulted f p) :
    step s = .fault .stepAfterFault := by
  simp [step, h]

theorem step_of_fetch_fault {s : State} {f : RunFault} (hr : s.run = .running) (hf : fetch s.config.prog s.pc = .fault f) :
    step s = .next (s.raise f) := by
  simp [step, hr, hf]

theorem step_of_fetch_word {s : State} {w : Word} (hr : s.run = .running) (hf : fetch s.config.prog s.pc = .word w) :
    step s = stepWord w s := by
  simp [step, hr, hf]

theorem stepWord_unsupported {s : State} {w : Word} (hd : decode s.config.jImmDecode w = .unsupported) :
    stepWord w s = .next (s.raise (.unsupportedInstruction w)) := by
  simp [stepWord, hd]

theorem stepWord_instr {s : State} {w : Word} {i : Instr} (hd : decode s.config.jImmDecode w = .instr i) :
    stepWord w s = finish (exec i s) := by
  simp [stepWord, hd]

/-- Everything a step that answers a next state has done: it started RUNNING, and it raised a fetch fault, raised
UnsupportedInstructionError for a word of no row, or executed an instruction and completed it (R39). -/
theorem step_cases {s t : State} (h : step s = .next t) :
    s.run = .running ∧
    ((∃ f, fetch s.config.prog s.pc = .fault f ∧ t = s.raise f) ∨
     (∃ w, fetch s.config.prog s.pc = .word w ∧ decode s.config.jImmDecode w = .unsupported ∧
        t = s.raise (.unsupportedInstruction w)) ∨
     (∃ w i u, fetch s.config.prog s.pc = .word w ∧ decode s.config.jImmDecode w = .instr i ∧
        exec i s = .next u ∧ t = u.complete)) := by
  cases hr : s.run with
  | halted => rw [step_of_halted hr] at h; cases h
  | faulted f p => rw [step_of_faulted hr] at h; cases h
  | running =>
    refine ⟨rfl, ?_⟩
    cases hf : fetch s.config.prog s.pc with
    | fault f =>
      rw [step_of_fetch_fault hr hf] at h
      cases h
      exact .inl ⟨f, rfl, rfl⟩
    | word w =>
      rw [step_of_fetch_word hr hf] at h
      cases hd : decode s.config.jImmDecode w with
      | unsupported =>
        rw [stepWord_unsupported hd] at h
        cases h
        exact .inr (.inl ⟨w, rfl, hd, rfl⟩)
      | instr i =>
        rw [stepWord_instr hd] at h
        obtain ⟨u, hu⟩ := exec_next i s
        rw [hu, finish_next] at h
        cases h
        exact .inr (.inr ⟨w, i, u, rfl, hd, hu, rfl⟩)

/-! ## The placed word -/

@[simp] theorem State.withFetchWord_run (s : State) (n w : Nat) : (s.withFetchWord n w).run = .running := rfl
@[simp] theorem State.withFetchWord_regs (s : State) (n w : Nat) : (s.withFetchWord n w).regs = s.regs := rfl
@[simp] theorem State.withFetchWord_mem (s : State) (n w : Nat) : (s.withFetchWord n w).mem = s.mem := rfl
@[simp] theorem State.withFetchWord_trace (s : State) (n w : Nat) : (s.withFetchWord n w).trace = s.trace := rfl
@[simp] theorem State.withFetchWord_jImmDecode (s : State) (n w : Nat) :
    (s.withFetchWord n w).config.jImmDecode = s.config.jImmDecode := rfl
@[simp] theorem State.withFetchWord_lwUnmapped (s : State) (n w : Nat) :
    (s.withFetchWord n w).config.lwUnmapped = s.config.lwUnmapped := rfl

/-- An aligned pc stays where it is. -/
theorem State.withFetchWord_pc {s : State} (h : s.pc.toNat % 4 = 0) (n w : Nat) : (s.withFetchWord n w).pc = s.pc := by
  apply BitVec.eq_of_toNat_eq
  show (alignedPc s.pc).toNat = s.pc.toNat
  rw [alignedPc_toNat]
  omega

/-- The next fetch answers the placed word. -/
theorem fetch_withFetchWord (s : State) (n w : Nat) :
    fetch (s.withFetchWord n w).config.prog (s.withFetchWord n w).pc = .word (BitVec.ofNat 32 (w % 2 ^ n)) := by
  apply fetch_word
  · show (alignedPc s.pc).toNat % 4 = 0
    rw [alignedPc_toNat]
    omega
  · show (placeWord s.config.prog (s.pc.toNat / 4) _)[(alignedPc s.pc).toNat / 4]? = _
    rw [alignedPc_toNat, Nat.mul_div_cancel_left _ (by decide)]
    exact placeWord_getElem? _ _ _

end Sys2Proof.Machine
end

