-- ==== Sys2Proof/Laws/Run.lean ====
section
/-! SUPPORT. The laws of running several steps with the host's `Host.Core.run`. -/

namespace Sys2Proof.Machine

theorem run_zero (M : Host.Core) (s : M.State) : Host.Core.run M 0 s = .next s := rfl

/-- A run whose first step answers goes on from its next state. -/
theorem run_succ_of_next {M : Host.Core} {s t : M.State} (h : M.step s = .next t) (k : Nat) :
    Host.Core.run M (k + 1) s = Host.Core.run M k t := by
  rw [Host.Core.run, h]

/-- A run of k + 1 steps that answers is a first step that answers and a run of k steps. -/
theorem run_succ_cases {M : Host.Core} {k : Nat} {s u : M.State} (h : Host.Core.run M (k + 1) s = .next u) :
    ∃ t, M.step s = .next t ∧ Host.Core.run M k t = .next u := by
  rw [Host.Core.run] at h
  cases hs : M.step s with
  | next t => rw [hs] at h; exact ⟨t, rfl, h⟩
  | fault r => rw [hs] at h; cases h
  | refused r => rw [hs] at h; cases h

/-- The same, taken apart at its last step. -/
theorem run_snoc_cases {M : Host.Core} {k : Nat} {s u : M.State} (h : Host.Core.run M (k + 1) s = .next u) :
    ∃ t, Host.Core.run M k s = .next t ∧ M.step t = .next u := by
  induction k generalizing s with
  | zero =>
    obtain ⟨t, ht, hu⟩ := run_succ_cases h
    cases hu
    exact ⟨s, rfl, ht⟩
  | succ k ih =>
    obtain ⟨t, ht, hu⟩ := run_succ_cases h
    obtain ⟨v, hv, hvu⟩ := ih hu
    exact ⟨v, (run_succ_of_next ht k).trans hv, hvu⟩

/-- A run and one more step. -/
theorem run_snoc_of_next {M : Host.Core} {k : Nat} {s t u : M.State} (h : Host.Core.run M k s = .next t)
    (hu : M.step t = .next u) : Host.Core.run M (k + 1) s = .next u := by
  induction k generalizing s with
  | zero => cases h; exact run_succ_of_next hu 0
  | succ k ih =>
    obtain ⟨v, hv, hvt⟩ := run_succ_cases h
    exact (run_succ_of_next hv (k + 1)).trans (ih hvt)

/-- A longer run passes through the states of a shorter one. -/
theorem run_le {M : Host.Core} {j k : Nat} (hjk : j ≤ k) {s u : M.State} (h : Host.Core.run M k s = .next u) :
    ∃ t, Host.Core.run M j s = .next t := by
  induction hjk generalizing u with
  | refl => exact ⟨u, h⟩
  | step _ ih =>
    obtain ⟨t, ht, -⟩ := run_snoc_cases h
    exact ih ht

end Sys2Proof.Machine
end

