-- ==== Sys2Proof/Laws/Observation.lean ====
section
/-! SUPPORT. The laws of the observation of a run. -/

namespace Sys2Proof.Machine

theorem observe_of_running {s : State} (h : s.run = .running) : observe s = none := by simp [observe, h]

theorem observe_of_halted {s : State} (h : s.run = .halted) : observe s = some (.halted s.trace s.mem.residentPairs) := by
  simp [observe, h]

theorem observe_of_faulted {s : State} {f : RunFault} {p : Word} (h : s.run = .faulted f p) :
    observe s = some (.faulted f p s.trace) := by
  simp [observe, h]

/-- A state that gives an observation is not RUNNING. -/
theorem run_of_observe {s : State} {o : Observation} (h : observe s = some o) : s.run ≠ .running := fun hr => by
  rw [observe_of_running hr] at h
  cases h

/-- A run goes no further than the step that ends it. -/
theorem le_of_runOf_ended {c : Config} {j k : Nat} {s t : State} (hs : runOf c j = .next s) (he : s.run ≠ .running)
    (ht : runOf c k = .next t) : k ≤ j := by
  by_contra hlt
  obtain ⟨u, hu⟩ := run_le (M := Sys2Proof.core) (show j + 1 ≤ k by omega) ht
  obtain ⟨v, hv, hvu⟩ := run_snoc_cases hu
  cases hs.symm.trans hv
  exact he (step_cases hvu).1

/-- A run ends once, in one state. -/
theorem runOf_ended_unique {c : Config} {j k : Nat} {s t : State} (hs : runOf c j = .next s) (he : s.run ≠ .running)
    (ht : runOf c k = .next t) (hf : t.run ≠ .running) : j = k ∧ s = t := by
  have hjk := Nat.le_antisymm (le_of_runOf_ended ht hf hs) (le_of_runOf_ended hs he ht)
  subst hjk
  cases hs.symm.trans ht
  exact ⟨rfl, rfl⟩

end Sys2Proof.Machine
end

