-- ==== Sys2Proof/Laws/PerInstr.lean ====
section
/-! SUPPORT. One statement for all instructions, said per instruction: an encoded instruction fits its row of the opcode
table, whatever its operands are. -/

namespace Sys2Proof.Laws

/-- A word under a mask that keeps funct7, funct3 and opcode. -/
theorem and_rowMaskR {w : Word} {f7 : BitVec 7} {f3 : BitVec 3} {op : BitVec 7} (h7 : funct7Of w = f7)
    (h3 : funct3Of w = f3) (ho : opcodeOf w = op) : w &&& 0xFE00707F#32 = f7 ++ 0#10 ++ f3 ++ 0#5 ++ op := by
  subst h7; subst h3; subst ho
  apply BitVec.eq_of_getLsbD_eq
  intro i hi
  simp only [BitVec.getLsbD_and, BitVec.getLsbD_append, funct7Of, funct3Of, opcodeOf, BitVec.getLsbD_extractLsb']
  interval_cases i <;> simp

/-- The same for a mask that keeps funct3 and opcode only. -/
theorem and_rowMask3 {w : Word} {f3 : BitVec 3} {op : BitVec 7} (h3 : funct3Of w = f3) (ho : opcodeOf w = op) :
    w &&& 0x0000707F#32 = 0#17 ++ f3 ++ 0#5 ++ op := by
  subst h3; subst ho
  apply BitVec.eq_of_getLsbD_eq
  intro i hi
  simp only [BitVec.getLsbD_and, BitVec.getLsbD_append, funct3Of, opcodeOf, BitVec.getLsbD_extractLsb']
  interval_cases i <;> simp

/-- The same for a mask that keeps the opcode only. -/
theorem and_rowMaskJ {w : Word} {op : BitVec 7} (ho : opcodeOf w = op) :
    w &&& 0x0000007F#32 = 0#25 ++ op := by
  subst ho
  apply BitVec.eq_of_getLsbD_eq
  intro i hi
  simp only [BitVec.getLsbD_and, BitVec.getLsbD_append, opcodeOf, BitVec.getLsbD_extractLsb']
  interval_cases i <;> simp

/-- The encoded instruction agrees with its row's match under its row's mask. -/
def RowMatch.Statement (i : Instr) : Prop := ∀ m, encode m i &&& i.rowMask = i.rowMatch

theorem RowMatch.add (rd rs1 rs2 : RegId) : RowMatch.Statement (.add rd rs1 rs2) := fun _ =>
  have h := fields_encodeR 0b0000000#7 0b000#3 rd rs1 rs2
  and_rowMaskR h.2.2.1 h.2.1 h.1

theorem RowMatch.sub (rd rs1 rs2 : RegId) : RowMatch.Statement (.sub rd rs1 rs2) := fun _ =>
  have h := fields_encodeR 0b0100000#7 0b000#3 rd rs1 rs2
  and_rowMaskR h.2.2.1 h.2.1 h.1

theorem RowMatch.slt (rd rs1 rs2 : RegId) : RowMatch.Statement (.slt rd rs1 rs2) := fun _ =>
  have h := fields_encodeR 0b0000000#7 0b010#3 rd rs1 rs2
  and_rowMaskR h.2.2.1 h.2.1 h.1

theorem RowMatch.srl (rd rs1 rs2 : RegId) : RowMatch.Statement (.srl rd rs1 rs2) := fun _ =>
  have h := fields_encodeR 0b0000000#7 0b101#3 rd rs1 rs2
  and_rowMaskR h.2.2.1 h.2.1 h.1

theorem RowMatch.or (rd rs1 rs2 : RegId) : RowMatch.Statement (.or rd rs1 rs2) := fun _ =>
  have h := fields_encodeR 0b0000000#7 0b110#3 rd rs1 rs2
  and_rowMaskR h.2.2.1 h.2.1 h.1

theorem RowMatch.and (rd rs1 rs2 : RegId) : RowMatch.Statement (.and rd rs1 rs2) := fun _ =>
  have h := fields_encodeR 0b0000000#7 0b111#3 rd rs1 rs2
  and_rowMaskR h.2.2.1 h.2.1 h.1


theorem RowMatch.lw (rd rs1 : RegId) (imm : Word) : RowMatch.Statement (.lw rd rs1 imm) := fun _ =>
  have h := fields_encodeI opLoad 0b010#3 rd rs1 imm
  and_rowMask3 h.2.1 h.1

theorem RowMatch.addi (rd rs1 : RegId) (imm : Word) : RowMatch.Statement (.addi rd rs1 imm) := fun _ =>
  have h := fields_encodeI opImm 0b000#3 rd rs1 imm
  and_rowMask3 h.2.1 h.1

theorem RowMatch.jalr (rd rs1 : RegId) (imm : Word) : RowMatch.Statement (.jalr rd rs1 imm) := fun _ =>
  have h := fields_encodeI opJalr 0b000#3 rd rs1 imm
  and_rowMask3 h.2.1 h.1

theorem RowMatch.sw (rs1 rs2 : RegId) (imm : Word) : RowMatch.Statement (.sw rs1 rs2 imm) := fun _ =>
  have h := fields_encodeS 0b010#3 rs1 rs2 imm
  and_rowMask3 h.2.1 h.1

theorem RowMatch.beq (rs1 rs2 : RegId) (imm : Word) : RowMatch.Statement (.beq rs1 rs2 imm) := fun _ =>
  have h := fields_encodeB 0b000#3 rs1 rs2 imm
  and_rowMask3 h.2.1 h.1

theorem RowMatch.bne (rs1 rs2 : RegId) (imm : Word) : RowMatch.Statement (.bne rs1 rs2 imm) := fun _ =>
  have h := fields_encodeB 0b001#3 rs1 rs2 imm
  and_rowMask3 h.2.1 h.1

theorem RowMatch.blt (rs1 rs2 : RegId) (imm : Word) : RowMatch.Statement (.blt rs1 rs2 imm) := fun _ =>
  have h := fields_encodeB 0b100#3 rs1 rs2 imm
  and_rowMask3 h.2.1 h.1

theorem RowMatch.jal (rd : RegId) (imm : Word) : RowMatch.Statement (.jal rd imm) := fun m =>
  and_rowMaskJ (fields_encodeJ m rd imm).1

end Sys2Proof.Laws
end

