-- ==== Sys2Proof/Tests/Slice0.lean ====
section
/-! SUPPORT. The model's own tests: ill-formed terms refused, words from the spec's encodings, one-step tests whose expected
values are the spec's (spec/95_test_vectors.md), and for each statement values that meet its hypotheses. -/

namespace Sys2Proof.Tests

open Sys2Proof.Machine Sys2Proof.Claims

/-! ## A small state -/

/-- A launched machine at a pc, with some registers set. -/
def started (c : Config) (pc : Word) (g : List (RegId × Word)) : State :=
  (g.foldl (fun s e => s.setReg e.1 e.2) (State.launch c)).setPc pc

/-- The same with default parameters and no program. -/
def plain (pc : Word) (g : List (RegId × Word)) : State := started { prog := [] } pc g

/-- A view of the next state, if there is one. -/
def after {α : Type} (o : Host.Outcome State Fault Refusal) (f : State → α) : Option α :=
  match o with
  | .next t => some (f t)
  | .fault _ => none
  | .refused _ => none

/-- The state has had a word stored at an address. -/
def stored (s : State) (a v : Word) : State := s.setMem (s.mem.write a v)

/-! ## WellFormed: a term each check refuses, beside one it lets through -/

theorem test_wf_lw_range : (Instr.lw 1 2 2048#32).wf .standard = false ∧ (Instr.lw 1 2 2047#32).wf .standard = true := by decide
theorem test_wf_addi_range : (Instr.addi 1 2 (-2049#32)).wf .standard = false ∧
    (Instr.addi 1 2 (-2048#32)).wf .standard = true := by decide
theorem test_wf_jalr_range : (Instr.jalr 1 2 4096#32).wf .standard = false := by decide
theorem test_wf_sw_range : (Instr.sw 1 2 (-2049#32)).wf .standard = false ∧ (Instr.sw 1 2 2047#32).wf .standard = true := by decide
theorem test_wf_beq_range : (Instr.beq 1 2 4096#32).wf .standard = false ∧ (Instr.beq 1 2 4094#32).wf .standard = true := by decide
theorem test_wf_beq_even : (Instr.beq 1 2 9#32).wf .standard = false := by decide
theorem test_wf_bne_range : (Instr.bne 1 2 (-4098#32)).wf .standard = false ∧
    (Instr.bne 1 2 (-4096#32)).wf .standard = true := by decide
theorem test_wf_bne_even : (Instr.bne 1 2 1#32).wf .standard = false := by decide
theorem test_wf_blt_range : (Instr.blt 1 2 4096#32).wf .standard = false := by decide
theorem test_wf_blt_even : (Instr.blt 1 2 (-1#32)).wf .standard = false := by decide
theorem test_wf_jal_range : (Instr.jal 1 1048576#32).wf .standard = false ∧
    (Instr.jal 1 1048574#32).wf .standard = true := by decide
theorem test_wf_jal_even : (Instr.jal 1 3#32).wf .standard = false := by decide
theorem test_wf_jal_literal : (Instr.jal 1 1048576#32).wf .literal = false ∧ (Instr.jal 1 (-4#32)).wf .literal = false ∧
    (Instr.jal 1 1048575#32).wf .literal = true := by decide

/-! ## Decoding: words written out from the format tables (R61 to R65, R71), rows V1, V2, V3, V5, V6 and W8 -/

theorem test_decode_add : decode .standard 0b0000000_00010_00001_000_00011_0110011#32 = .instr (.add 3 1 2) := by decide
theorem test_decode_sub : decode .standard 0b0100000_00010_00001_000_00011_0110011#32 = .instr (.sub 3 1 2) := by decide
theorem test_decode_slt : decode .standard 0b0000000_00010_00001_010_00011_0110011#32 = .instr (.slt 3 1 2) := by decide
theorem test_decode_srl : decode .standard 0b0000000_00010_00001_101_00011_0110011#32 = .instr (.srl 3 1 2) := by decide
theorem test_decode_or : decode .standard 0b0000000_00010_00001_110_00011_0110011#32 = .instr (.or 3 1 2) := by decide
theorem test_decode_and : decode .standard 0b0000000_00010_00001_111_00011_0110011#32 = .instr (.and 3 1 2) := by decide
theorem test_decode_lw : decode .standard 0b000001111100_00101_010_01000_0000011#32 = .instr (.lw 8 5 124#32) := by decide
theorem test_decode_addi : decode .standard 0b100000000000_00010_000_00001_0010011#32 = .instr (.addi 1 2 (-2048#32)) := by decide
theorem test_decode_jalr : decode .standard 0b111111111111_00001_000_00000_1100111#32 = .instr (.jalr 0 1 (-1#32)) := by decide
theorem test_decode_sw : decode .standard 0b1111111_01000_00101_010_11100_0100011#32 = .instr (.sw 5 8 (-4#32)) := by decide
theorem test_decode_beq : decode .standard 0b0_111111_00000_00000_000_1111_1_1100011#32 = .instr (.beq 0 0 4094#32) := by decide
theorem test_decode_bne : decode .standard 0b1_111111_00000_00101_001_1100_1_1100011#32 = .instr (.bne 5 0 (-8#32)) := by decide
theorem test_decode_blt : decode .standard 0b0_000000_00010_00001_100_0100_0_1100011#32 = .instr (.blt 1 2 8#32) ∧
    decodeExecutable .standard 0x0020C463#32 = .unsupported := by decide
theorem test_decode_jal : decode .standard 0b0_0000000000_1_00000000_00001_1101111#32 = .instr (.jal 1 2048#32) ∧
    decode .standard 0b1_1111111110_1_11111111_00000_1101111#32 = .instr (.jal 0 (-4#32)) ∧
    decode .literal 0b1_1111111110_1_11111111_00000_1101111#32 = .instr (.jal 0 1048573#32) := by decide

/-- V5's and V6's immediates. -/
theorem test_decode_immediates :
    immB 0x80000F63#32 = -4066#32 ∧ immB 0x00000F63#32 = 30#32 ∧ immB 0x80000063#32 = -4096#32 ∧
    immJ .standard 0x8000006F#32 = -1048576#32 ∧ immJ .literal 0x8000006F#32 = 1#32 ∧
    immJ .standard 0x7FFFF06F#32 = 1048574#32 ∧ immJ .literal 0x7FFFF06F#32 = 1048574#32 ∧
    immJ .standard 0x0000106F#32 = 4096#32 := by decide

/-- V7's words of other opcodes and R-type pairs, each of them Unsupported. -/
theorem test_decode_unsupported_opcodes :
    [0x00000000#32, 0xFFFFFFFF#32, 0x00000037#32, 0x00000017#32, 0x0000000F#32, 0x00000073#32, 0x00100073#32].all
      (fun w => decide (decode .standard w = .unsupported)) = true := by decide

/-- V7's words of a known opcode with an unlisted funct3 or funct7. -/
theorem test_decode_unsupported_functs :
    [0x00001013#32, 0x00002013#32, 0x00001033#32, 0x40005033#32, 0x02000033#32, 0x00001003#32, 0x00001023#32,
      0x00005063#32, 0x00001067#32].all (fun w => decide (decode .standard w = .unsupported)) = true := by decide

/-- W8's words, encoded. -/
theorem test_encode :
    encode .standard (.addi 1 2 2047#32) = 0x7FF10093#32 ∧ encode .standard (.sw 5 7 124#32) = 0x0672AE23#32 ∧
    encode .standard (.beq 0 0 (-4096#32)) = 0x80000063#32 ∧ encode .standard (.jal 0 1048574#32) = 0x7FFFF06F#32 ∧
    encode .literal (.jal 0 1048573#32) = 0xFFDFF06F#32 := by decide

/-- W3's rows. -/
theorem test_codec : toTwosComplement (-1) 12 = 4095 ∧ toTwosComplement (-4096) 13 = 4096 ∧ codecSignExtend 2048 12 = -2048 ∧
    codecSignExtend 0x1FFFFE 21 = -2 := by decide

theorem test_decodeTableWord : decodeTableWord 32 0x00500513 = some (.addi 10 0 5#32) ∧ decodeTableWord 32 0 = none := by decide

/-! ## One step of each instruction: V1, V2, V3, V5, V6, W4 -/

theorem test_add_wraps : after (exec (.add 3 1 2) (plain 0 [(1, 0x7FFFFFFF), (2, 1)])) (fun t => (t.reg 3, t.pc)) =
    some (0x80000000#32, 4#32) := by decide
theorem test_add_source_is_destination :
    after (exec (.add 1 1 1) (plain 0 [(1, 0x40000000)])) (fun t => t.reg 1) = some 0x80000000#32 := by decide
theorem test_sub_wraps : after (exec (.sub 3 1 2) (plain 0 [(1, 5), (2, 7)])) (fun t => t.reg 3) = some 0xFFFFFFFE#32 := by decide
theorem test_slt_signed : after (exec (.slt 3 1 2) (plain 0 [(1, 0x80000000), (2, 0x7FFFFFFF)])) (fun t => t.reg 3) =
    some 1#32 := by decide
theorem test_slt_not_less : after (exec (.slt 3 1 2) (plain 0 [(1, 1), (2, 0xFFFFFFFF)])) (fun t => t.reg 3) =
    some 0#32 := by decide
theorem test_srl_four_bits : after (exec (.srl 3 1 2) (plain 0 [(1, 0x80000000), (2, 31)])) (fun t => t.reg 3) =
    some 0x00010000#32 := by decide
theorem test_srl_by_sixteen : after (exec (.srl 3 1 2) (plain 0 [(1, 0x80000000), (2, 16)])) (fun t => t.reg 3) =
    some 0x80000000#32 := by decide
theorem test_or : after (exec (.or 3 1 2) (plain 0 [(1, 0xF0), (2, 0x0F)])) (fun t => t.reg 3) = some 0xFF#32 := by decide
theorem test_and : after (exec (.and 3 1 2) (plain 0 [(1, 0xFF0), (2, 0xFF)])) (fun t => t.reg 3) = some 0xF0#32 := by decide
theorem test_lw_resident : after (exec (.lw 5 6 8) (stored (plain 0 [(6, 65528)]) 65536 0xDEADBEEF)) (fun t => t.reg 5) =
    some 0xDEADBEEF#32 := by decide
theorem test_lw_unmapped :
    (after (exec (.lw 5 6 8) (plain 0 [(6, 65529), (5, 9)])) (fun t => t.reg 5) = some 9#32) ∧
    (after (exec (.lw 5 6 8) (started { prog := [], lwUnmapped := .zero } 0 [(6, 65529), (5, 9)])) (fun t => t.reg 5) =
      some 0#32) ∧
    (after (exec (.lw 5 6 8) (started { prog := [], lwUnmapped := .fault } 52 [(6, 65529), (5, 9)])) (fun t => (t.reg 5, t.run)) =
      some (9#32, .faulted (.unmappedLoad 65537) 52)) := by decide
theorem test_addi_negative : after (exec (.addi 1 2 (-2048)) (plain 0 [])) (fun t => t.reg 1) = some 0xFFFFF97C#32 := by decide
theorem test_addi_to_x0 : after (exec (.addi 0 0 5) (plain 0 [])) (fun t => (t.regs.get 0, t.pc)) = some (0#32, 4#32) := by decide
theorem test_jalr_old_base : after (exec (.jalr 1 1 4) (plain 20 [(1, 8)])) (fun t => (t.reg 1, t.pc)) =
    some (24#32, 12#32) := by decide
theorem test_jalr_keeps_bit_0 : after (exec (.jalr 0 1 1) (plain 20 [(1, 8)])) (fun t => t.pc) = some 9#32 := by decide
theorem test_sw_last_resident : after (exec (.sw 5 7 124) (plain 0 [(5, 65536), (7, 0xFFFFFFF9)]))
    (fun t => (t.mem.res.get 31, t.mem.scratch)) = some (0xFFFFFFF9#32, []) := by decide
theorem test_sw_misaligned : after (exec (.sw 5 5 1) (plain 0 [(5, 65536)]))
    (fun t => (t.mem.res.get 0, t.mem.res.get 1, t.mem.scratch)) = some (0#32, 0#32, [(65537, 65536#32)]) := by decide
theorem test_beq_halts : after (exec (.beq 1 2 0) (plain 16 [(1, 7), (2, 7)])) (fun t => (t.pc, t.run)) =
    some (20#32, .halted) := by decide
theorem test_beq_taken : after (exec (.beq 1 2 8) (plain 16 [(1, 3), (2, 3)])) (fun t => (t.pc, t.run)) =
    some (24#32, .running) := by decide
theorem test_bne_backwards : after (exec (.bne 5 0 (-8)) (plain 16 [(5, 3)])) (fun t => t.pc) = some 8#32 := by decide
theorem test_bne_equal_never_halts : after (exec (.bne 1 2 0) (plain 16 [(1, 7), (2, 7)])) (fun t => (t.pc, t.run)) =
    some (20#32, .running) := by decide
theorem test_blt_faults : after (step (started { prog := [0x00100093, 0x0020C463, 0x00000063] } 4 [(1, 1)]))
    (fun t => (t.pc, t.run, t.trace)) = some (4#32, .faulted (.unsupportedInstruction 0x0020C463) 4, []) := by decide
theorem test_jal_links : after (exec (.jal 1 12) (plain 4 [])) (fun t => (t.reg 1, t.pc)) = some (8#32, 16#32) := by decide
theorem test_jal_literal : after (step (started { prog := [0, 0, 0xFFDFF06F], jImmDecode := .literal } 8 []))
    (fun t => t.pc) = some 1048581#32 := by decide

/-! ## Fetch, translator and the first record: V8, V4, W9 -/

theorem test_fetch : fetch [1, 2, 3] 8 = .word 3#32 ∧ fetch [1, 2, 3] 12 = .fault .missingHalt ∧
    fetch [1, 2, 3] 16 = .fault .pcOutOfBounds ∧ fetch [1, 2, 3] 2 = .fault .pcOutOfBounds ∧
    fetch [1, 2, 3] 14 = .fault .pcOutOfBounds ∧ fetch [1, 2, 3] 0xFFFFFFFC = .fault .pcOutOfBounds ∧
    fetch [] 0 = .fault .missingHalt := by decide

theorem test_translate : translateAddress 65536 = .resident 0 ∧ translateAddress 65600 = .resident 16 ∧
    translateAddress 65660 = .resident 31 ∧ translateAddress 65532 = .scratch 65532 ∧
    translateAddress 65664 = .scratch 65664 ∧ translateAddress 65537 = .scratch 65537 ∧ translateAddress 0 = .scratch 0 := by decide

theorem test_first_record : after (step (started { prog := [0x00000013] } 0 [])) (fun t => t.trace.map fun r => (r.pc, r.regs.get 2)) =
    some [(4#32, 380#32)] := by decide

/-! ## A run that never ends: W6's hang -/

/-- The program whose one word is `jal x0, 0`. -/
def hang : Config := { prog := [0x0000006F] }

theorem test_hang_step (l : List TraceRecord) : step { State.launch hang with trace := l } =
    .next { State.launch hang with trace := l ++ [{ pc := 0, regs := resetRegs }] } :=
  (step_of_fetch_word rfl (fetch_word rfl (by decide : hang.prog[(0#32).toNat / 4]? = some 0x0000006F#32))).trans
    (stepWord_instr (i := .jal 0 0) (by decide : decode .standard 0x0000006F#32 = .instr (.jal 0 0)))

/-- After k steps: k records of pc 0 and the reset registers. -/
theorem test_hang_steps (k : Nat) :
    runOf hang k = .next { State.launch hang with trace := (List.range k).map fun _ => { pc := 0, regs := resetRegs } } := by
  induction k with
  | zero => rfl
  | succ k ih =>
    rw [List.range_succ, List.map_append]
    exact run_snoc_of_next (M := Sys2Proof.core) ih (test_hang_step _)

theorem test_hang_diverges : RunObserves hang (.divergence fun _ => { pc := 0, regs := resetRegs }) :=
  fun k => ⟨_, test_hang_steps k, rfl, rfl⟩

theorem test_p5a_observation : RunObserves { prog := [0x00100093] }
    (.ended (.faulted .missingHalt 4 [{ pc := 4, regs := resetRegs.set 1 1 }])) := ⟨2, _, rfl, by decide⟩

/-! ## Values that meet the hypotheses of each statement -/

/-- P1 of spec/95_test_vectors.md, whose last word halts. -/
def p1 : Config := { prog := [0x00500513, 0x00500593, 0x00B50063] }

/-- P1 at its halting BEQ. -/
def atHalt : State := started p1 8 [(10, 5), (11, 5)]

/-- LW from an address in no map, under each value of the parameter. -/
def unmapped (m : LwUnmapped) : State := started { prog := [0x00832283], lwUnmapped := m } 0 [(6, 65529), (5, 9)]

/-- A machine whose one word is `w`, at that word. -/
def running (w : Word) (g : List (RegId × Word)) : State := started { prog := [w] } 0 g

theorem witness_AddWritesWrappedSum : 0x002081B3#32 &&& 0xFE00707F#32 = 0x00000033#32 := by decide
theorem witness_SubWritesWrappedDifference : 0x402081B3#32 &&& 0xFE00707F#32 = 0x40000033#32 := by decide
theorem witness_SltWritesSignedComparison : 0x0020A1B3#32 &&& 0xFE00707F#32 = 0x00002033#32 := by decide
theorem witness_SrlShiftsByLowFourBits : 0x0020D1B3#32 &&& 0xFE00707F#32 = 0x00005033#32 := by decide
theorem witness_OrWritesBitwiseOr : 0x0020E1B3#32 &&& 0xFE00707F#32 = 0x00006033#32 := by decide
theorem witness_AndWritesBitwiseAnd : 0x0020F1B3#32 &&& 0xFE00707F#32 = 0x00007033#32 := by decide

/-- The row; both ends of the resident window and a stored scratch word; and each value of the parameter. -/
theorem witness_LwLoadsOrFollowsUnmappedParameter :
    0x07C2A403#32 &&& 0x0000707F#32 = 0x00002003#32 ∧
    (plain 0 [(6, 65536)]).mem.read (effectiveAddress (plain 0 [(6, 65536)]) 6 0) = some 0#32 ∧
    (plain 0 [(6, 65536)]).mem.read (effectiveAddress (plain 0 [(6, 65536)]) 6 124) = some 0#32 ∧
    (stored (plain 0 []) 65537 42).mem.read (effectiveAddress (plain 0 [(6, 65529)]) 6 8) = some 42#32 ∧
    ((unmapped .keep).mem.read (effectiveAddress (unmapped .keep) 6 8) = none ∧ (unmapped .keep).config.lwUnmapped = .keep) ∧
    ((unmapped .zero).mem.read (effectiveAddress (unmapped .zero) 6 8) = none ∧ (unmapped .zero).config.lwUnmapped = .zero) ∧
    ((unmapped .fault).mem.read (effectiveAddress (unmapped .fault) 6 8) = none ∧
      (unmapped .fault).config.lwUnmapped = .fault) := by decide

theorem witness_AddiAddsSignedImmediate : 0xFFF00093#32 &&& 0x0000707F#32 = 0x00000013#32 := by decide
theorem witness_JalrLinksAndJumpsToRegisterSum : 0x004080E7#32 &&& 0x0000707F#32 = 0x00000067#32 := by decide

/-- The row; both ends of the resident window; and the scratch addresses next to them. -/
theorem witness_SwStoresOneWord :
    0x0672AE23#32 &&& 0x0000707F#32 = 0x00002023#32 ∧
    (effectiveAddress (plain 0 [(5, 65536)]) 5 0).toNat = 65536 + 4 * (0 : Fin 32).val ∧
    (effectiveAddress (plain 0 [(5, 65536)]) 5 124).toNat = 65536 + 4 * (31 : Fin 32).val ∧
    (∀ k : Fin 32, (effectiveAddress (plain 0 [(5, 65536)]) 5 (-4)).toNat ≠ 65536 + 4 * k.val) ∧
    (∀ k : Fin 32, (effectiveAddress (plain 0 [(5, 65536)]) 5 128).toNat ≠ 65536 + 4 * k.val) ∧
    (∀ k : Fin 32, (effectiveAddress (plain 0 [(5, 65536)]) 5 1).toNat ≠ 65536 + 4 * k.val) := by decide

theorem witness_BeqBranchesOrHalts :
    0x00B50063#32 &&& 0x0000707F#32 = 0x00000063#32 ∧
    (atHalt.reg 10 = atHalt.reg 11 ∧ (0#32).toInt = 0) ∧ (atHalt.reg 10 = atHalt.reg 11 ∧ (2#32).toInt ≠ 0) ∧
    atHalt.reg 10 ≠ atHalt.reg 2 := by decide

theorem witness_BneBranchesWhenDifferent :
    0xFE029CE3#32 &&& 0x0000707F#32 = 0x00001063#32 ∧ atHalt.reg 10 ≠ atHalt.reg 0 ∧ atHalt.reg 10 = atHalt.reg 11 := by decide

theorem witness_BltIsFatal :
    0x0020C463#32 &&& 0x0000707F#32 = 0x00004063#32 ∧
    (field 0x0020C463#32 6 0 = 0b1100011 ∧ field 0x0020C463#32 14 12 ≠ 0b000 ∧ field 0x0020C463#32 14 12 ≠ 0b001) ∧
    (field 0x00002063#32 6 0 = 0b1100011 ∧ field 0x00002063#32 14 12 ≠ 0b000 ∧ field 0x00002063#32 14 12 ≠ 0b001) ∧
    (running 0x0020C463 []).run = .running ∧
    (running 0x0020C463 []).pc.toNat % 4 = 0 ∧
    (running 0x0020C463 []).config.prog[(running 0x0020C463 []).pc.toNat / 4]? = some 0x0020C463#32 := by decide

theorem witness_BltRowFaultsWithItsOwnWord : 0x0020C463#32 &&& 0x0000707F#32 = 0x00004063#32 := by decide

theorem witness_JalLinksAndJumps : 0xFFDFF06F#32 &&& 0x0000007F#32 = 0x0000006F#32 := by decide

/-- One well-formed instruction of every shape, the immediates at both ends. -/
theorem witness_DecodeOfEncodeIsIdentity :
    (∀ i ∈ [Instr.add 31 0 31, .sub 0 31 0, .slt 1 2 3, .srl 1 2 3, .or 1 2 3, .and 1 2 3, .lw 31 0 2047, .lw 0 31 (-2048),
      .addi 1 2 (-2048), .jalr 1 2 2047, .sw 31 0 (-2048), .sw 0 31 2047, .beq 1 2 (-4096), .bne 1 2 4094, .blt 1 2 (-4096),
      .jal 31 (-1048576), .jal 0 1048574], i.wf .standard = true) ∧
    (Instr.jal 1 0).wf .literal = true ∧ (Instr.jal 1 1048575).wf .literal = true := by decide

theorem witness_EncodeOfDecodeIsIdentity : decode .standard 0xFE029CE3#32 = .instr (.bne 5 0 (-8)) ∧
    decode .literal 0x8000006F#32 = .instr (.jal 0 1) := by decide

/-- Both ends of the range at widths 12 and 32, and a pattern at the sign's place. -/
theorem witness_CodecRoundTripsAtEveryWidth :
    ((1 ≤ 12) ∧ -((2 : Int) ^ (12 - 1)) ≤ -2048 ∧ (-2048 : Int) ≤ 2 ^ (12 - 1) - 1) ∧
    ((1 ≤ 12) ∧ -((2 : Int) ^ (12 - 1)) ≤ 2047 ∧ (2047 : Int) ≤ 2 ^ (12 - 1) - 1) ∧
    (1 ≤ 32 ∧ 32 ≤ 32 ∧ 2 ^ 31 < 2 ^ 32) := by decide

theorem witness_DecodedRowIsTheTableRow : decode .standard 0x0020C463#32 = .instr (.blt 1 2 8) ∧
    0x0020C463#32 &&& (Instr.blt 1 2 8).rowMask = (Instr.blt 1 2 8).rowMatch := by decide

theorem witness_UnsupportedExactlyOffTheTable :
    field 0xFFFFFFFE#32 1 0 ≠ 0b11 ∧ (running 0x40005033 []).run = .running ∧
    ((running 0x40005033 []).pc.toNat % 4 = 0 ∧
      (running 0x40005033 []).config.prog[(running 0x40005033 []).pc.toNat / 4]? = some 0x40005033#32) ∧
    ¬ ∃ row ∈ executableRows, 0x40005033#32 &&& row.1 = row.2 := by decide

theorem witness_LaunchStateIsTheResetState :
    (31 : RegId) ≠ 2 ∧ (∀ k : Fin 32, (65532#32).toNat ≠ 65536 + 4 * k.val) ∧
    (∀ k : Fin 32, (65664#32).toNat ≠ 65536 + 4 * k.val) := by decide

theorem witness_X0ReadsZeroAndIsNeverWritten :
    (∃ t, exec (.addi 0 0 5) (plain 0 []) = .next t) ∧ ∃ t, step (running 0x00500013 []) = .next t := ⟨⟨_, rfl⟩, ⟨_, rfl⟩⟩

theorem witness_OnlyTheDestinationRegisterChanges :
    (∃ t, exec (.addi 10 0 5) (plain 0 []) = .next t ∧ t.regs.get 10 ≠ (plain 0 []).regs.get 10) ∧
    (∃ t, exec (.lw 5 6 8) (unmapped .keep) = .next t) ∧
    (unmapped .keep).mem.read (effectiveAddress (unmapped .keep) 6 8) = none ∧ (unmapped .keep).config.lwUnmapped ≠ .zero :=
  ⟨⟨_, rfl, by decide⟩, ⟨_, rfl⟩, by decide, by decide⟩

/-- Two register files that agree on the sources of `add x3, x1, x2` and differ elsewhere. -/
theorem witness_OnlyTheSourceRegistersAreRead :
    (∀ r ∈ sources (.add 3 1 2), State.reg { plain 0 [(1, 5)] with regs := (plain 0 [(1, 5), (3, 9), (4, 9)]).regs } r =
      (plain 0 [(1, 5)]).reg r) ∧
    (∃ t, exec (.add 3 1 2) (plain 0 [(1, 5)]) = .next t) ∧
    ∃ u, exec (.add 3 1 2) { plain 0 [(1, 5)] with regs := (plain 0 [(1, 5), (3, 9), (4, 9)]).regs } = .next u :=
  ⟨by decide, ⟨_, rfl⟩, ⟨_, rfl⟩⟩

/-- A fault-free case, a faulting one and a halting one. -/
theorem witness_NextPcFollowsTheSequencerTable :
    (∃ t, exec (.beq 10 11 8) atHalt = .next t ∧ atHalt.run = .running ∧ t.faultFree) ∧
    (∃ t, exec (.blt 10 11 8) atHalt = .next t ∧ atHalt.run = .running ∧ ¬ t.faultFree) ∧
    (∃ t, exec (.beq 10 11 0) atHalt = .next t ∧ atHalt.run = .running ∧ t.run = .halted) :=
  ⟨⟨_, rfl, rfl, rfl⟩, ⟨_, rfl, rfl, nofun⟩, ⟨_, rfl, rfl, rfl⟩⟩

theorem witness_ReadsFollowTheTranslator :
    (stored (plain 0 []) 65537 42).mem.wf ∧ translateAddress 65660#32 = .resident 31 ∧
    translateAddress 65537#32 = .scratch 65537#32 := by decide

theorem witness_WritesAreSeenAtTheirAddressOnly :
    (65537#32 ≠ 65536#32) ∧ translateAddress 65660#32 = .resident 31 ∧ translateAddress 65664#32 = .scratch 65664#32 := by decide

theorem witness_CanonicalMemoriesThatReadAlikeAreEqual :
    (stored (stored (plain 0 []) 4 1) 0 2).mem.wf ∧ (stored (stored (plain 0 []) 0 2) 4 1).mem.wf ∧
    ∀ a, (stored (stored (plain 0 []) 4 1) 0 2).mem.read a = (stored (stored (plain 0 []) 0 2) 4 1).mem.read a :=
  ⟨by decide, by decide, fun a =>
    congrArg (fun m : Memory => m.read a)
      (by decide : (stored (stored (plain 0 []) 4 1) 0 2).mem = (stored (stored (plain 0 []) 0 2) 4 1).mem)⟩

theorem witness_LoadAfterStoreGivesTheStoredWord :
    ∃ t, exec (.sw 5 7 1) (plain 0 [(5, 65536), (7, 9)]) = .next t ∧
      effectiveAddress t 5 1 = effectiveAddress (plain 0 [(5, 65536), (7, 9)]) 5 1 := ⟨_, rfl, rfl⟩

theorem witness_OnlySwChangesADataWord :
    ∃ t, step (running 0x0072A023 [(5, 65536), (7, 9)]) = .next t ∧
      t.mem.read 65536 ≠ (running 0x0072A023 [(5, 65536), (7, 9)]).mem.read 65536 ∧
      ((running 0x0072A023 [(5, 65536), (7, 9)]).mem.read 65536).isSome = true := ⟨_, rfl, by decide, by decide⟩

theorem witness_ExecutionNeverReachesTheProgram :
    (∃ t, step (running 0x0072A023 [(7, 9)]) = .next t) ∧ ∃ t, exec (.sw 5 7 0) (running 0x0072A023 [(7, 9)]) = .next t :=
  ⟨⟨_, rfl⟩, ⟨_, rfl⟩⟩

/-- P1 (N_PROG = 3) at V8's pcs: 2 and 14; 12; 16; and 0 and 8. -/
theorem witness_FetchFollowsTheProgramBounds :
    (∀ pc : Word, (started p1 pc []).run = .running) ∧
    ((started p1 2 []).pc.toNat % 4 ≠ 0 ∧ (started p1 14 []).pc.toNat % 4 ≠ 0) ∧
    (started p1 12 []).pc.toNat = 4 * (started p1 12 []).config.nProg ∧
    4 * (started p1 16 []).config.nProg < (started p1 16 []).pc.toNat ∧
    ((started p1 0 []).pc.toNat % 4 = 0 ∧ (started p1 0 []).pc.toNat < 4 * (started p1 0 []).config.nProg) ∧
    ((started p1 8 []).pc.toNat % 4 = 0 ∧ (started p1 8 []).pc.toNat < 4 * (started p1 8 []).config.nProg) :=
  ⟨fun _ => rfl, by decide, by decide, by decide, by decide, by decide⟩

/-- A fault-free instruction and a faulting one. -/
theorem witness_StepRunsTheDecodedInstruction :
    (atHalt.run = .running ∧ Fetches atHalt 0x00B50063 ∧ decode atHalt.config.jImmDecode 0x00B50063 = .instr (.beq 10 11 0) ∧
      ∃ u, exec (.beq 10 11 0) atHalt = .next u ∧ u.faultFree) ∧
    ((running 0x0020C463 []).run = .running ∧ Fetches (running 0x0020C463 []) 0x0020C463 ∧
      decode (running 0x0020C463 []).config.jImmDecode 0x0020C463 = .instr (.blt 1 2 8) ∧
      ∃ u, exec (.blt 1 2 8) (running 0x0020C463 []) = .next u ∧ ¬ u.faultFree) :=
  ⟨⟨rfl, ⟨rfl, rfl⟩, by decide, _, rfl, rfl⟩, ⟨rfl, ⟨rfl, rfl⟩, by decide, _, rfl, nofun⟩⟩

/-- An ended run; a fetch that faults; an Unsupported word; and an instruction that completes and one that faults. -/
theorem witness_StepIsFetchDecodeExecuteRecord :
    (atHalt.setRun .halted).run ≠ .running ∧
    ((plain 0 []).run = .running ∧ ¬ ∃ w, Fetches (plain 0 []) w) ∧
    ((running 0x0020C463 []).run = .running ∧ Fetches (running 0x0020C463 []) 0x0020C463 ∧
      decodeExecutable .standard 0x0020C463 = .unsupported) ∧
    (atHalt.run = .running ∧ Fetches atHalt 0x00B50063 ∧
      decodeExecutable atHalt.config.jImmDecode 0x00B50063 = .instr (.beq 10 11 0)) ∧
    ((unmapped .fault).run = .running ∧ Fetches (unmapped .fault) 0x00832283 ∧
      decodeExecutable (unmapped .fault).config.jImmDecode 0x00832283 = .instr (.lw 5 6 8)) :=
  ⟨nofun, ⟨rfl, fun ⟨_, _, h⟩ => nomatch h⟩, ⟨rfl, ⟨rfl, rfl⟩, by decide⟩, ⟨rfl, ⟨rfl, rfl⟩, by decide⟩,
    ⟨rfl, ⟨rfl, rfl⟩, by decide⟩⟩

theorem witness_PlacedWordIsTheNextInstruction :
    State.reset.config.jImmDecode = .standard ∧ decodeTableWord 32 0x00500513 = some (.addi 10 0 5) := by decide

theorem witness_RunningStepAlwaysAnswers : State.reset.run = .running := rfl

theorem witness_FaultChangesOnlyTheRunState :
    ∃ t, step State.reset = .next t ∧ t.run = .faulted .missingHalt 0 := ⟨_, rfl, rfl⟩

/-- Each of the four faults. -/
theorem witness_FaultsHaveExactlyTheirCauses :
    (∃ t, step (started p1 12 []) = .next t ∧ t.run = .faulted .missingHalt 12) ∧
    (∃ t, step (started p1 14 []) = .next t ∧ t.run = .faulted .pcOutOfBounds 14) ∧
    (∃ t, step (started p1 16 []) = .next t ∧ t.run = .faulted .pcOutOfBounds 16) ∧
    (∃ t, step (running 0 []) = .next t ∧ t.run = .faulted (.unsupportedInstruction 0) 0) ∧
    (∃ t, step (unmapped .fault) = .next t ∧ t.run = .faulted (.unmappedLoad 65537) 0) :=
  ⟨⟨_, rfl, rfl⟩, ⟨_, rfl, rfl⟩, ⟨_, rfl, rfl⟩, ⟨_, rfl, rfl⟩, ⟨_, rfl, rfl⟩⟩

theorem witness_HaltingStepIsTheEqualZeroBeq : ∃ t, step atHalt = .next t ∧ t.run = .halted := ⟨_, rfl, rfl⟩

theorem witness_RunsGoOnUntilHaltedOrFaulted :
    (atHalt.setRun .halted).run ≠ .running ∧ (State.reset.raise .missingHalt).run ≠ .running ∧ atHalt.run = .running := by decide

theorem witness_MisalignedTargetsFaultAtTheNextFetch :
    ∃ t, step (running 0x00008067 [(1, 6)]) = .next t ∧ t.run = .running ∧ t.pc.toNat % 4 ≠ 0 := ⟨_, rfl, rfl, by decide⟩

theorem witness_LiteralOddJumpFaultsAtTheNextFetch :
    (started { prog := [0xFFDFF06F], jImmDecode := .literal } 0 []).run = .running ∧
    Fetches (started { prog := [0xFFDFF06F], jImmDecode := .literal } 0 []) 0xFFDFF06F ∧
    (started { prog := [0xFFDFF06F], jImmDecode := .literal } 0 []).config.jImmDecode = .literal ∧
    field 0xFFDFF06F 6 0 = 0b1101111 ∧ field 0xFFDFF06F 31 31 = 1 := ⟨rfl, ⟨rfl, rfl⟩, rfl, by decide, by decide⟩

theorem witness_BneToItselfNeverEnds :
    (running 0x00209063 [(1, 7)]).run = .running ∧ Fetches (running 0x00209063 [(1, 7)]) 0x00209063 ∧
    decode (running 0x00209063 [(1, 7)]).config.jImmDecode 0x00209063 = .instr (.bne 1 2 0) ∧
    (running 0x00209063 [(1, 7)]).reg 1 ≠ (running 0x00209063 [(1, 7)]).reg 2 := ⟨rfl, ⟨rfl, rfl⟩, by decide, by decide⟩

theorem witness_TraceGrowsByOneRecordAndIsNeverRead :
    (∃ t, step atHalt = .next t ∧ t.faultFree) ∧ ∃ t, step State.reset = .next t ∧ ¬ t.faultFree :=
  ⟨⟨_, rfl, rfl⟩, ⟨_, rfl, nofun⟩⟩

/-- The longest program the bound allows, and the empty one. -/
theorem witness_LaunchMeetsTheInvariant :
    Config.wf { prog := List.replicate (2 ^ 30) 0#32 } = true ∧ Config.wf { prog := [] } = true :=
  ⟨decide_eq_true (List.length_replicate.le : (List.replicate (2 ^ 30) 0#32).length ≤ maxProgWords), by decide⟩

theorem witness_EveryStepKeepsTheInvariant : (State.launch p1).Inv ∧ ∃ t, step (State.launch p1) = .next t :=
  ⟨⟨by decide, by simp, resetMemory_wf, by decide, by simp, nofun, nofun⟩, ⟨_, rfl⟩⟩

theorem witness_ReachableStatesKeepTheInvariantAndTheProgram : p1.wf = true ∧ ∃ s, Reachable p1 s ∧ s.pc = 4#32 :=
  ⟨by decide, _, .step .launch rfl, by decide⟩

/-- A run of one completed step and one whose only step faults. -/
theorem witness_TraceCountsTheCompletedSteps :
    (∃ s, runFor 1 (State.launch p1) = .next s ∧ s.faultFree) ∧
    ∃ s, runFor 1 (State.launch { prog := [] }) = .next s ∧ ¬ s.faultFree := ⟨⟨_, rfl, rfl⟩, ⟨_, rfl, nofun⟩⟩

theorem witness_DumpComesExactlyAfterAHalt : ∃ d, residentDump (atHalt.setRun .halted) = some d := ⟨_, rfl⟩

theorem witness_ObservationComesExactlyAtTheEnd :
    (atHalt.setRun .halted).run = .halted ∧ (State.reset.raise .missingHalt).run = .faulted .missingHalt 0 := by decide

/-- P1 after three steps has halted; an empty program faults at once. -/
theorem witness_EveryRunHasExactlyOneObservation :
    (∃ s, runFor 3 (State.launch p1) = .next s ∧ s.run = .halted) ∧
    ∃ s, runFor 1 (State.launch { prog := [] }) = .next s ∧ s.run = .faulted .missingHalt 0 :=
  ⟨⟨_, rfl, rfl⟩, ⟨_, rfl, rfl⟩⟩

/-- `bne x2, x0, 0` at reset (x2 = 380), and `jal x0, 0`. -/
theorem witness_ReachedHangGivesDivergence :
    (runFor 0 (State.launch { prog := [0x00011063] }) = .next (State.launch { prog := [0x00011063] }) ∧
      Fetches (State.launch { prog := [0x00011063] }) 0x00011063 ∧ decode .standard 0x00011063 = .instr (.bne 2 0 0#32) ∧
      (State.launch { prog := [0x00011063] }).reg 2 ≠ (State.launch { prog := [0x00011063] }).reg 0) ∧
    (runFor 0 (State.launch { prog := [0x0000006F] }) = .next (State.launch { prog := [0x0000006F] }) ∧
      Fetches (State.launch { prog := [0x0000006F] }) 0x0000006F ∧ decode .standard 0x0000006F = .instr (.jal 0 0#32)) :=
  ⟨⟨rfl, ⟨rfl, rfl⟩, by decide, by decide⟩, ⟨rfl, ⟨rfl, rfl⟩, by decide⟩⟩

/-- The first and the last character. -/
theorem witness_TraceTextStandsForThePattern : 0 < 32 ∧ 31 < 32 := by decide

end Sys2Proof.Tests
end

section
/-! The source's codec at every width (R19). A pattern's sign bit stands for half of the pattern's range: both functions of
the codec are compared across that half. -/

namespace Sys2Proof.Proofs

open Sys2Proof.Machine Sys2Proof.Claims

/-! ## The codec's functions, case by case -/

theorem toTwosComplement_of_nonneg {v : Int} (n : Nat) (h : 0 ≤ v) : toTwosComplement v n = v := if_pos h

theorem toTwosComplement_of_neg {v : Int} (n : Nat) (h : v < 0) : toTwosComplement v n = 2 ^ n + v :=
  if_neg (by omega)

theorem codecSignExtend_of_lt {b : Int} {n : Nat} (h : b < 2 ^ (n - 1)) : codecSignExtend b n = b := if_pos h

theorem codecSignExtend_of_ge {b : Int} {n : Nat} (h : 2 ^ (n - 1) ≤ b) : codecSignExtend b n = b - 2 ^ n :=
  if_neg (by omega)

/-- The patterns of a width are twice as many as those below the sign bit. -/
theorem two_pow_eq_half_add_half {n : Nat} (hn : 1 ≤ n) : (2 : Int) ^ n = 2 ^ (n - 1) + 2 ^ (n - 1) := by
  rw [← mul_pow_sub_one (by omega : n ≠ 0), two_mul]

/-! ## From a value to its pattern and back -/

section
variable {n : Nat} {v : Int}

theorem toTwosComplement_mem_range (hn : 1 ≤ n) (hlo : -(2 ^ (n - 1)) ≤ v) (hhi : v ≤ 2 ^ (n - 1) - 1) :
    0 ≤ toTwosComplement v n ∧ toTwosComplement v n < 2 ^ n := by
  have hhalf := two_pow_eq_half_add_half hn
  rcases Int.lt_or_le v 0 with hv | hv
  · rw [toTwosComplement_of_neg n hv]
    omega
  · rw [toTwosComplement_of_nonneg n hv]
    omega

/-- A negative value's pattern has the sign bit set, a nonnegative one's has not, so sign extension subtracts 2^n
exactly where it was added. -/
theorem codecSignExtend_toTwosComplement (hn : 1 ≤ n) (hlo : -(2 ^ (n - 1)) ≤ v) (hhi : v ≤ 2 ^ (n - 1) - 1) :
    codecSignExtend (toTwosComplement v n) n = v := by
  have hhalf := two_pow_eq_half_add_half hn
  rcases Int.lt_or_le v 0 with hv | hv
  · rw [toTwosComplement_of_neg n hv, codecSignExtend_of_ge (by omega)]
    omega
  · rw [toTwosComplement_of_nonneg n hv, codecSignExtend_of_lt (by omega)]

end

/-! ## From a pattern to its signed integer -/

theorem codecSignExtend_natCast (b n : Nat) : codecSignExtend b n = signedOf n b := by
  unfold codecSignExtend signedOf
  norm_cast

/-- `signedOf` is the library's signed reading of a bit vector, at every width. -/
theorem signedOf_toNat {n : Nat} (x : BitVec n) : signedOf n x.toNat = x.toInt := by
  rw [signedOf, BitVec.toInt_eq_toNat_cond]
  cases n with
  | zero => simp [BitVec.of_length_zero]
  | succ k =>
    have hsign : x.toNat < 2 ^ (k + 1 - 1) ↔ 2 * x.toNat < 2 ^ (k + 1) := by
      rw [Nat.add_sub_cancel, Nat.pow_succ]
      omega
    simp only [hsign, Nat.cast_pow, Nat.cast_ofNat]

/-- The signed integer of a pattern, taken modulo 2^32, is the pattern's `sext`. -/
theorem ofInt_signedOf_toNat {n : Nat} (x : BitVec n) : BitVec.ofInt 32 (signedOf n x.toNat) = x.signExtend 32 := by
  rw [signedOf_toNat, BitVec.signExtend]

/-- Settles O21: the round trip by the sign of the value, the sign extension by the signed reading of bit vectors. -/
theorem codecRoundTripsAtEveryWidth : Obligations.CodecRoundTripsAtEveryWidth := by
  unfold Obligations.CodecRoundTripsAtEveryWidth
  constructor
  · intro n v hn hlo hhi
    obtain ⟨hnonneg, hlt⟩ := toTwosComplement_mem_range hn hlo hhi
    exact ⟨hnonneg, hlt, toTwosComplement_of_nonneg n, toTwosComplement_of_neg n,
      codecSignExtend_toTwosComplement hn hlo hhi⟩
  · intro n b _ _ hb
    have hpattern : (BitVec.ofNat n b).toNat = b := by rw [BitVec.toNat_ofNat, Nat.mod_eq_of_lt hb]
    refine ⟨codecSignExtend_natCast b n, ?_⟩
    rw [codecSignExtend_natCast, ← ofInt_signedOf_toNat, hpattern]

end Sys2Proof.Proofs
end

section
/-! What an executed instruction does to a state, as data: the effect of an instruction, the laws of applying one, and what a
step does in those words. -/

namespace Sys2Proof.Proofs

open Sys2Proof.Machine Sys2Proof.Claims

/-! ## Effects -/

/-- The five ways an executed instruction can act on a state. -/
inductive Effect where
  | raise (f : RunFault)
  | goto (pc : Word)
  | write (rd : RegId) (v pc : Word)
  | store (ea v : Word)
  | halt

/-- The state after an effect. -/
def Effect.apply (s : State) : Effect → State
  | .raise f => s.raise f
  | .goto pc => s.setPc pc
  | .write rd v pc => (s.setReg rd v).setPc pc
  | .store ea v => (s.setMem (s.mem.write ea v)).advance
  | .halt => s.advance.setRun .halted

/-- The register an effect writes, if it writes one (R25). -/
def Effect.target : Effect → Option RegId
  | .write rd _ _ => some rd
  | .raise _ | .goto _ | .store _ _ | .halt => none

/-- The effect of LW at an address (R91). -/
def loadEffect (s : State) (rd : RegId) (ea : Word) : Effect :=
  match s.mem.read ea, s.config.lwUnmapped with
  | some v, _ => .write rd v s.pcNext
  | none, .keep => .goto s.pcNext
  | none, .zero => .write rd 0#32 s.pcNext
  | none, .fault => .raise (.unmappedLoad ea)

/-- The effect of a branch after its comparison (R96 to R98). -/
def branchEffect (s : State) (imm : Word) : Comparison → Effect
  | .notTaken => .goto s.pcNext
  | .taken => .goto (pcRelative s imm)
  | .halt => .halt

/-- The effect of an instruction in a state; `exec_eq_effect` ties it to the model. -/
def effect (s : State) : Instr → Effect
  | .add rd rs1 rs2 => .write rd (alu .add (s.reg rs1) (s.reg rs2)) s.pcNext
  | .sub rd rs1 rs2 => .write rd (alu .sub (s.reg rs1) (s.reg rs2)) s.pcNext
  | .slt rd rs1 rs2 => .write rd (alu .slt (s.reg rs1) (s.reg rs2)) s.pcNext
  | .srl rd rs1 rs2 => .write rd (alu .srl (s.reg rs1) (s.reg rs2)) s.pcNext
  | .or rd rs1 rs2 => .write rd (alu .or (s.reg rs1) (s.reg rs2)) s.pcNext
  | .and rd rs1 rs2 => .write rd (alu .and (s.reg rs1) (s.reg rs2)) s.pcNext
  | .lw rd rs1 imm => loadEffect s rd (effectiveAddress s rs1 imm)
  | .addi rd rs1 imm => .write rd (alu .add (s.reg rs1) imm) s.pcNext
  | .jalr rd rs1 imm => .write rd s.pcNext (registerTarget s rs1 imm)
  | .sw rs1 rs2 imm => .store (effectiveAddress s rs1 imm) (s.reg rs2)
  | .beq rs1 rs2 imm => branchEffect s imm (branchCompare .beq (s.reg rs1) (s.reg rs2) imm)
  | .bne rs1 rs2 imm => branchEffect s imm (branchCompare .bne (s.reg rs1) (s.reg rs2) imm)
  | .blt rs1 rs2 imm => .raise (.unsupportedInstruction (encode .standard (.blt rs1 rs2 imm)))
  | .jal rd imm => .write rd s.pcNext (pcRelative s imm)

/-- A register write does not move the pc that the sequential next pc starts from. -/
theorem setReg_advance (s : State) (rd : RegId) (v : Word) :
    (s.setReg rd v).advance = (Effect.write rd v s.pcNext).apply s := by
  simp [Effect.apply, State.advance, State.pcNext]

theorem loadEffect_of_read {s : State} {rd : RegId} {ea v : Word} (h : s.mem.read ea = some v) :
    loadEffect s rd ea = .write rd v s.pcNext := by
  simp [loadEffect, h]

/-- LW in the open case, each answer of `LW_UNMAPPED` beside its effect (R91). -/
theorem loadUnmapped_eq_effect {s : State} {ea : Word} (rd : RegId) (h : s.mem.read ea = none) :
    loadUnmapped rd ea s = (loadEffect s rd ea).apply s := by
  obtain ⟨hc, hl⟩ | ⟨hc, hl⟩ | ⟨hc, hl⟩ := loadUnmapped_cases rd ea s
  · rw [hl]; simp [loadEffect, h, hc, Effect.apply, State.advance]
  · rw [hl, setReg_advance]; simp [loadEffect, h, hc]
  · rw [hl]; simp [loadEffect, h, hc, Effect.apply]

theorem branch_eq_effect (s : State) (imm : Word) (c : Comparison) :
    s.branch c imm = (branchEffect s imm c).apply s := by
  cases c <;> rfl

/-- Executing an instruction applies its effect. -/
theorem exec_eq_effect (i : Instr) (s : State) : exec i s = .next ((effect s i).apply s) := by
  cases i with
  | add | sub | slt | srl | or | and | addi => exact congrArg Host.Outcome.next (setReg_advance s _ _)
  | lw rd rs1 imm =>
    simp only [exec, execLw]
    split
    · next v h => rw [setReg_advance, effect, loadEffect_of_read h]
    · next h => rw [loadUnmapped_eq_effect rd h, effect]
  | beq | bne => exact congrArg Host.Outcome.next (branch_eq_effect s _ _)
  | jalr | jal | sw | blt => rfl

theorem eq_apply_of_exec {i : Instr} {s t : State} (h : exec i s = .next t) : t = (effect s i).apply s := by
  rw [exec_eq_effect] at h
  cases h
  rfl

/-! ## What every effect leaves as it was -/

section
variable (s : State) (e : Effect)

@[simp] theorem Effect.apply_config : (e.apply s).config = s.config := by cases e <;> simp [Effect.apply]

@[simp] theorem Effect.apply_trace : (e.apply s).trace = s.trace := by cases e <;> simp [Effect.apply]

/-- The stored x0 is never written (R23). -/
@[simp] theorem Effect.apply_get_zero : (e.apply s).regs.get 0 = s.regs.get 0 := by cases e <;> simp [Effect.apply]

/-- The data space stays in its canonical form (R44). -/
theorem Effect.apply_mem_wf {s : State} (h : s.mem.wf) : (e.apply s).mem.wf := by
  cases e with
  | store ea v => exact Memory.write_wf h ea v
  | write rd v pc => simpa [Effect.apply] using h
  | raise | goto | halt => exact h

end

/-- Only the target register of an effect can differ after it, and x0 never does (R25). -/
theorem Effect.apply_get {s : State} {e : Effect} {r : RegId} (h : (e.apply s).regs.get r ≠ s.regs.get r) :
    e.target = some r ∧ r ≠ 0 := by
  cases e with
  | write rd v pc =>
    simp only [Effect.apply, State.setPc_regs, State.setReg_get] at h
    split at h
    · next hr => exact ⟨congrArg some hr.1.symm, hr.1 ▸ hr.2⟩
    · exact absurd rfl h
  | raise | goto | store | halt => exact absurd rfl h

/-- From a RUNNING state an effect either is a fault or leaves a run that has not faulted. -/
theorem Effect.raise_or_faultFree {s : State} (e : Effect) (hr : s.run = .running) :
    (∃ f, e = .raise f) ∨ (e.apply s).faultFree := by
  cases e with
  | raise f => exact .inl ⟨f, rfl⟩
  | goto | write | store | halt => exact .inr (by simp [Effect.apply, State.faultFree, hr])

/-- From a RUNNING state only the halt effect leaves a HALTED one. -/
theorem Effect.apply_run_eq_halted_iff {s : State} (e : Effect) (hr : s.run = .running) :
    (e.apply s).run = .halted ↔ e = .halt := by
  cases e <;> simp [Effect.apply, hr]

/-! ## What a step does -/

/-- A state that has not faulted is completed by its record. -/
theorem complete_of_faultFree {s : State} (h : s.faultFree) : s.complete = recorded s := State.complete_of_not_faulted h

/-- The model's fetch answers a word exactly where the statements say it does (R38). -/
theorem fetch_eq_word_iff {s : State} {w : Word} : fetch s.config.prog s.pc = .word w ↔ Fetches s w :=
  ⟨fetch_eq_word, fun h => fetch_word h.1 h.2⟩

/-- A step from a RUNNING state whose word decodes to an instruction applies its effect and completes it (R39). -/
theorem step_of_fetches {s : State} {w : Word} {i : Instr} (hr : s.run = .running) (hf : Fetches s w)
    (hd : decode s.config.jImmDecode w = .instr i) : step s = .next ((effect s i).apply s).complete := by
  rw [step_of_fetch_word hr (fetch_eq_word_iff.mpr hf), stepWord_instr hd, exec_eq_effect, finish_next]

/-- A step that answers raises a fault, or applies the effect of the fetched instruction and records it (R39). -/
theorem step_raise_or_record {s t : State} (h : step s = .next t) :
    s.run = .running ∧ ((∃ f, t = faultedAt s f) ∨
      ∃ w i, Fetches s w ∧ decode s.config.jImmDecode w = .instr i ∧
        ((effect s i).apply s).faultFree ∧ t = recorded ((effect s i).apply s)) := by
  obtain ⟨hr, ⟨f, -, ht⟩ | ⟨w, -, -, ht⟩ | ⟨w, i, u, hf, hd, hu, ht⟩⟩ := step_cases h
  · exact ⟨hr, .inl ⟨f, ht⟩⟩
  · exact ⟨hr, .inl ⟨_, ht⟩⟩
  · refine ⟨hr, ?_⟩
    rw [eq_apply_of_exec hu] at ht
    obtain ⟨f, he⟩ | hff := (effect s i).raise_or_faultFree hr
    · rw [he] at ht
      exact .inl ⟨f, ht⟩
    · rw [complete_of_faultFree hff] at ht
      exact .inr ⟨w, i, fetch_eq_word_iff.mp hf, hd, hff, ht⟩

end Sys2Proof.Proofs
end

section
/-! The invariant of a run: a launch meets it, a fault keeps it and so does the record of a completed instruction. -/

namespace Sys2Proof.Proofs

open Sys2Proof.Machine Sys2Proof.Claims

/-- A fault at the present pc keeps the invariant: no other field moves (R104). -/
theorem inv_faultedAt {s : State} (h : s.Inv) (f : RunFault) : (faultedAt s f).Inv where
  x0_zero := h.x0_zero
  trace_x0_zero := h.trace_x0_zero
  mem_wf := h.mem_wf
  config_wf := h.config_wf
  last_record := h.last_record
  faulted_pc _ _ hrun := by cases hrun; rfl
  halted_recorded := nofun

/-- A recorded state meets the invariant as soon as its stored values do: the record is the present pc and registers. -/
theorem inv_recorded {s : State} (hx : s.regs.get 0 = 0#32) (ht : ∀ r ∈ s.trace, r.regs.get 0 = 0#32) (hm : s.mem.wf)
    (hc : s.config.wf = true) (hf : s.faultFree) : (recorded s).Inv where
  x0_zero := hx
  trace_x0_zero r hr := by
    rcases List.mem_append.mp hr with hr | hr
    · exact ht r hr
    · rw [List.mem_singleton.mp hr]
      exact hx
  mem_wf := hm
  config_wf := hc
  last_record r hr := by
    rw [recorded, List.getLast?_concat] at hr
    exact (Option.some.inj hr).symm
  faulted_pc f p hrun := absurd ((RunState.isFaulted_iff _).mpr ⟨f, p, hrun⟩) (Bool.eq_false_iff.mp hf)
  halted_recorded _ := List.concat_ne_nil _ _

theorem inv_launch {c : Config} (hc : c.wf = true) : (State.launch c).Inv where
  x0_zero := resetRegs_get 0
  trace_x0_zero := nofun
  mem_wf := State.launch_mem_wf c
  config_wf := hc
  last_record := nofun
  faulted_pc := nofun
  halted_recorded := nofun

/-- Settles O51: a step that answers has raised a fault, or has recorded the effect of an instruction, and no effect breaks
what the invariant says of x0, the trace, the data space and the program. -/
theorem everyStepKeepsTheInvariant : Obligations.EveryStepKeepsTheInvariant := by
  unfold Obligations.EveryStepKeepsTheInvariant
  intro s t hinv hstep
  obtain ⟨-, ⟨f, rfl⟩ | ⟨w, i, -, -, hff, rfl⟩⟩ := step_raise_or_record hstep
  · exact inv_faultedAt hinv f
  · apply inv_recorded
    · rw [Effect.apply_get_zero]
      exact hinv.x0_zero
    · rw [Effect.apply_trace]
      exact hinv.trace_x0_zero
    · exact Effect.apply_mem_wf _ hinv.mem_wf
    · rw [Effect.apply_config]
      exact hinv.config_wf
    · exact hff

/-- Settles O50: the model's reset is the launch of the empty program. -/
theorem launchMeetsTheInvariant : Obligations.LaunchMeetsTheInvariant := by
  unfold Obligations.LaunchMeetsTheInvariant
  refine ⟨fun c hc => inv_launch hc, ?_⟩
  rw [State.reset_eq_launch]
  exact inv_launch (by decide)

end Sys2Proof.Proofs
end

section
/-! Registers: which one an instruction changes, which ones it reads, and what is never written (R23 to R26). -/

namespace Sys2Proof.Proofs

open Sys2Proof.Machine Sys2Proof.Claims

/-! ## The effects of LW and of the branches, case by case -/

/-- LW's effect: the mapped case and the three answers of `LW_UNMAPPED` (R91). -/
theorem loadEffect_cases (s : State) (rd : RegId) (ea : Word) :
    (∃ v, s.mem.read ea = some v ∧ loadEffect s rd ea = .write rd v s.pcNext) ∨
    (s.mem.read ea = none ∧ s.config.lwUnmapped = .keep ∧ loadEffect s rd ea = .goto s.pcNext) ∨
    (s.mem.read ea = none ∧ s.config.lwUnmapped = .zero ∧ loadEffect s rd ea = .write rd 0#32 s.pcNext) ∨
    (s.mem.read ea = none ∧ s.config.lwUnmapped = .fault ∧ loadEffect s rd ea = .raise (.unmappedLoad ea)) := by
  cases hm : s.mem.read ea with
  | some v => exact .inl ⟨v, rfl, loadEffect_of_read hm⟩
  | none => cases hc : s.config.lwUnmapped <;> simp [loadEffect, hm, hc]

/-- BEQ's three effects (R97, R96). -/
theorem effect_beq_cases (s : State) (rs1 rs2 : RegId) (imm : Word) :
    (s.reg rs1 = s.reg rs2 ∧ imm = 0#32 ∧ effect s (.beq rs1 rs2 imm) = .halt) ∨
    (s.reg rs1 = s.reg rs2 ∧ imm ≠ 0#32 ∧ effect s (.beq rs1 rs2 imm) = .goto (pcRelative s imm)) ∨
    (s.reg rs1 ≠ s.reg rs2 ∧ effect s (.beq rs1 rs2 imm) = .goto s.pcNext) := by
  obtain ⟨he, hi, hc⟩ | ⟨he, hi, hc⟩ | ⟨he, hc⟩ := branchCompare_beq (s.reg rs1) (s.reg rs2) imm
  · exact .inl ⟨he, hi, congrArg (branchEffect s imm) hc⟩
  · exact .inr (.inl ⟨he, hi, congrArg (branchEffect s imm) hc⟩)
  · exact .inr (.inr ⟨he, congrArg (branchEffect s imm) hc⟩)

/-- BNE's two effects (R98). -/
theorem effect_bne_cases (s : State) (rs1 rs2 : RegId) (imm : Word) :
    (s.reg rs1 ≠ s.reg rs2 ∧ effect s (.bne rs1 rs2 imm) = .goto (pcRelative s imm)) ∨
    (s.reg rs1 = s.reg rs2 ∧ effect s (.bne rs1 rs2 imm) = .goto s.pcNext) := by
  obtain ⟨he, hc⟩ | ⟨he, hc⟩ := branchCompare_bne (s.reg rs1) (s.reg rs2) imm
  · exact .inl ⟨he, congrArg (branchEffect s imm) hc⟩
  · exact .inr ⟨he, congrArg (branchEffect s imm) hc⟩

/-! ## The register an instruction writes -/

/-- An effect writes no register but the one the instruction's rd field names (R25). -/
theorem destination_of_target {s : State} {i : Instr} {r : RegId} (h : (effect s i).target = some r) :
    destination i = some r := by
  cases i with
  | add | sub | slt | srl | or | and | addi | jalr | jal => exact h
  | sw | blt => cases h
  | lw rd rs1 imm =>
    rw [effect] at h
    obtain ⟨v, -, he⟩ | ⟨-, -, he⟩ | ⟨-, -, he⟩ | ⟨-, -, he⟩ := loadEffect_cases s rd (effectiveAddress s rs1 imm) <;>
      rw [he] at h
    · exact h
    · cases h
    · exact h
    · cases h
  | beq rs1 rs2 imm =>
    obtain ⟨-, -, he⟩ | ⟨-, -, he⟩ | ⟨-, he⟩ := effect_beq_cases s rs1 rs2 imm <;> rw [he] at h <;> cases h
  | bne rs1 rs2 imm =>
    obtain ⟨-, he⟩ | ⟨-, he⟩ := effect_bne_cases s rs1 rs2 imm <;> rw [he] at h <;> cases h

/-- LW from an address in no map writes no register unless the parameter is `zero` (R91). -/
theorem keepsRegisters_of_loadEffect {s : State} {ea : Word} (rd : RegId) (hm : s.mem.read ea = none)
    (hc : s.config.lwUnmapped ≠ .zero) : KeepsRegisters s ((loadEffect s rd ea).apply s) := by
  obtain ⟨v, hv, -⟩ | ⟨-, -, he⟩ | ⟨-, hz, -⟩ | ⟨-, -, he⟩ := loadEffect_cases s rd ea
  · rw [hm] at hv
    cases hv
  · rw [he]
    exact fun _ => rfl
  · exact absurd hz hc
  · rw [he]
    exact fun _ => rfl

/-- Settles O26: no effect writes x0, and a step's fault or record writes no register. -/
theorem x0ReadsZeroAndIsNeverWritten : Obligations.X0ReadsZeroAndIsNeverWritten := by
  unfold Obligations.X0ReadsZeroAndIsNeverWritten
  refine ⟨State.reg_zero, State.setReg_zero, fun _ => resetRegs_get 0, fun i s t hexec => ?_, fun s t hstep => ?_⟩
  · rw [eq_apply_of_exec hexec, Effect.apply_get_zero]
  · obtain ⟨-, ⟨f, rfl⟩ | ⟨w, i, -, -, -, rfl⟩⟩ := step_raise_or_record hstep
    · rfl
    · exact Effect.apply_get_zero s (effect s i)

/-- Settles O27: only an effect's target can differ, and the target is the register the rd field names. -/
theorem onlyTheDestinationRegisterChanges : Obligations.OnlyTheDestinationRegisterChanges := by
  unfold Obligations.OnlyTheDestinationRegisterChanges
  intro i s t hexec
  rw [eq_apply_of_exec hexec]
  constructor
  · intro r hr
    obtain ⟨htarget, hne⟩ := Effect.apply_get hr
    exact ⟨destination_of_target htarget, hne⟩
  · rintro rd rs1 imm rfl hm hc
    exact keepsRegisters_of_loadEffect rd hm hc

/-! ## The registers an instruction reads -/

theorem and_of_forall_mem_pair {p : RegId → Prop} {a b : RegId} (h : ∀ r ∈ [a, b], p r) : p a ∧ p b :=
  (List.forall_mem_cons.mp h).imp_right List.forall_mem_singleton.mp

/-- An instruction's effect is fixed by the pc, the data space, the configuration and its source registers (R24). -/
theorem effect_congr {i : Instr} {s s' : State} (hpc : s'.pc = s.pc) (hmem : s'.mem = s.mem)
    (hcfg : s'.config = s.config) (hreg : ∀ r ∈ sources i, s'.reg r = s.reg r) : effect s' i = effect s i := by
  have hnext : s'.pcNext = s.pcNext := by simp [State.pcNext, hpc]
  cases i with
  | add | sub | slt | srl | or | and =>
    obtain ⟨h1, h2⟩ := and_of_forall_mem_pair hreg
    simp only [effect, h1, h2, hnext]
  | addi | jalr =>
    have h1 := List.forall_mem_singleton.mp hreg
    simp only [effect, registerTarget, h1, hnext]
  | lw rd rs1 imm =>
    have h1 := List.forall_mem_singleton.mp hreg
    simp only [effect, loadEffect, effectiveAddress, h1, hmem, hcfg, hnext]
  | sw =>
    obtain ⟨h1, h2⟩ := and_of_forall_mem_pair hreg
    simp only [effect, effectiveAddress, h1, h2]
  | beq | bne =>
    obtain ⟨h1, h2⟩ := and_of_forall_mem_pair hreg
    simp only [effect, h1, h2]
    cases branchCompare _ _ _ _ <;> simp only [branchEffect, pcRelative, hpc, hnext]
  | blt => rfl
  | jal => simp only [effect, pcRelative, hpc, hnext]

/-- One effect on two register files: each register gets the same value or keeps its own. -/
theorem Effect.apply_get_withRegs (e : Effect) (s : State) (g : Vector Word 32) (r : RegId) :
    (e.apply { s with regs := g }).regs.get r = (e.apply s).regs.get r ∨
      ((e.apply s).regs.get r = s.regs.get r ∧ (e.apply { s with regs := g }).regs.get r = g.get r) := by
  cases e with
  | write rd v pc =>
    simp only [Effect.apply, State.setPc_regs, State.setReg_get]
    by_cases hr : r = rd ∧ rd ≠ 0
    · exact .inl (by rw [if_pos hr, if_pos hr])
    · exact .inr ⟨if_neg hr, if_neg hr⟩
  | raise | goto | store | halt => exact .inr ⟨rfl, rfl⟩

/-- Every other field is the same after one effect on two register files. -/
theorem Effect.apply_withRegs (e : Effect) (s : State) (g : Vector Word 32) :
    (e.apply { s with regs := g }).pc = (e.apply s).pc ∧ (e.apply { s with regs := g }).mem = (e.apply s).mem ∧
    (e.apply { s with regs := g }).run = (e.apply s).run ∧ (e.apply { s with regs := g }).trace = (e.apply s).trace ∧
    (e.apply { s with regs := g }).config = (e.apply s).config := by
  cases e <;> simp [Effect.apply]

/-- Settles O28: the two executions apply one effect. -/
theorem onlyTheSourceRegistersAreRead : Obligations.OnlyTheSourceRegistersAreRead := by
  unfold Obligations.OnlyTheSourceRegistersAreRead
  intro i s g t u hsrc ht hu
  have hsame : effect { s with regs := g } i = effect s i := effect_congr rfl rfl rfl hsrc
  rw [eq_apply_of_exec ht, eq_apply_of_exec hu, hsame]
  obtain ⟨hpc, hmem, hrun, htrace, hcfg⟩ := (effect s i).apply_withRegs s g
  exact ⟨hpc, hmem, hrun, htrace, hcfg, (effect s i).apply_get_withRegs s g⟩

/-! ## Reset -/

/-- An address that is none of the 32 keys is not resident (R46). -/
theorem not_isResident {a : Nat} (h : ∀ k : Fin 32, a ≠ 65536 + 4 * k.val) : ¬ isResident a := by
  simp only [isResident, resBase, resLast, resStep]
  rintro ⟨hlo, hhi, hmod⟩
  exact h ⟨(a - 65536) / 4, by omega⟩ (by dsimp only; omega)

theorem resetMemory_res_get (k : Fin 32) : resetMemory.res.get k = 0#32 := by
  revert k; decide

/-- Settles O25: the launch is the reset register file and data space. -/
theorem launchStateIsTheResetState : Obligations.LaunchStateIsTheResetState := by
  unfold Obligations.LaunchStateIsTheResetState
  intro c
  refine ⟨?_, fun r hr => ?_, rfl, resetMemory_res_get, fun a ha => ?_, rfl, rfl, rfl⟩
  · rw [State.launch_regs, resetRegs_get]
    rfl
  · rw [State.launch_regs, resetRegs_get, if_neg hr]
  · rw [State.launch_mem, resetMemory_read, if_neg (not_isResident ha)]

end Sys2Proof.Proofs
end

section
/-! The next pc (R28, R29) and the halt flag. -/

namespace Sys2Proof.Proofs

open Sys2Proof.Machine Sys2Proof.Claims

/-- A sum of words as the wrapped sum of an address and a signed offset (R17, R29). -/
theorem add_toNat_eq (a b : Word) : ((a + b).toNat : Int) = (a.toNat + b.toInt) % 2 ^ 32 := by
  rw [BitVec.toNat_add, BitVec.toInt_eq_toNat_cond]
  split <;> omega

theorem pcNext_toNat (s : State) : (s.pcNext.toNat : Int) = (s.pc.toNat + 4) % 2 ^ 32 := add_toNat_eq s.pc 4#32

/-- The pc after an instruction that does not fault is the sequencer table's sum modulo 2^32 (R28). -/
theorem effect_pc {s : State} {i : Instr} (h : ((effect s i).apply s).faultFree) :
    (((effect s i).apply s).pc.toNat : Int) = sequencerTable s i % 2 ^ 32 := by
  cases i with
  | add | sub | slt | srl | or | and | addi | sw => exact pcNext_toNat s
  | jalr rd rs1 imm => exact add_toNat_eq (s.reg rs1) imm
  | jal rd imm => exact add_toNat_eq s.pc imm
  | blt => exact nomatch h
  | lw rd rs1 imm =>
    rw [effect] at h ⊢
    obtain ⟨v, -, he⟩ | ⟨-, -, he⟩ | ⟨-, -, he⟩ | ⟨-, -, he⟩ := loadEffect_cases s rd (effectiveAddress s rs1 imm) <;>
      rw [he] at h ⊢
    · exact pcNext_toNat s
    · exact pcNext_toNat s
    · exact pcNext_toNat s
    · cases h
  | beq rs1 rs2 imm =>
    obtain ⟨heq, hi, he⟩ | ⟨heq, hi, he⟩ | ⟨hne, he⟩ := effect_beq_cases s rs1 rs2 imm <;> rw [he, sequencerTable]
    · rw [if_neg (by simp [hi])]
      exact pcNext_toNat s
    · rw [if_pos ⟨heq, fun h0 => hi (BitVec.eq_of_toInt_eq h0)⟩]
      exact add_toNat_eq s.pc imm
    · rw [if_neg (fun h => hne h.1)]
      exact pcNext_toNat s
  | bne rs1 rs2 imm =>
    obtain ⟨hne, he⟩ | ⟨heq, he⟩ := effect_bne_cases s rs1 rs2 imm <;> rw [he, sequencerTable]
    · rw [if_pos hne]
      exact add_toNat_eq s.pc imm
    · rw [if_neg (not_not.mpr heq)]
      exact pcNext_toNat s

/-- Only BEQ with immediate 0 and equal values halts (R31, R96). -/
theorem effect_eq_halt_iff (s : State) (i : Instr) :
    effect s i = .halt ↔ ∃ rs1 rs2, i = .beq rs1 rs2 0#32 ∧ s.reg rs1 = s.reg rs2 := by
  constructor
  · intro h
    cases i with
    | add | sub | slt | srl | or | and | addi | sw | jalr | jal | blt => cases h
    | lw rd rs1 imm =>
      rw [effect] at h
      obtain ⟨v, -, he⟩ | ⟨-, -, he⟩ | ⟨-, -, he⟩ | ⟨-, -, he⟩ := loadEffect_cases s rd (effectiveAddress s rs1 imm) <;>
        rw [he] at h <;> cases h
    | beq rs1 rs2 imm =>
      obtain ⟨heq, rfl, -⟩ | ⟨-, -, he⟩ | ⟨-, he⟩ := effect_beq_cases s rs1 rs2 imm
      · exact ⟨rs1, rs2, rfl, heq⟩
      · rw [he] at h; cases h
      · rw [he] at h; cases h
    | bne rs1 rs2 imm =>
      obtain ⟨-, he⟩ | ⟨-, he⟩ := effect_bne_cases s rs1 rs2 imm <;> rw [he] at h <;> cases h
  · rintro ⟨rs1, rs2, rfl, heq⟩
    obtain ⟨-, -, he⟩ | ⟨-, hi, -⟩ | ⟨hne, -⟩ := effect_beq_cases s rs1 rs2 0#32
    · exact he
    · exact absurd rfl hi
    · exact absurd heq hne

/-- Settles O29: the pc and the halt flag of each instruction's effect. -/
theorem nextPcFollowsTheSequencerTable : Obligations.NextPcFollowsTheSequencerTable := by
  unfold Obligations.NextPcFollowsTheSequencerTable
  intro i s t hexec hr
  rw [eq_apply_of_exec hexec]
  exact ⟨effect_pc, ((effect s i).apply_run_eq_halted_iff hr).trans (effect_eq_halt_iff s i)⟩

end Sys2Proof.Proofs
end

section
/-! The step: fetch, decode, execute, record (R38, R39), and the trace it leaves (R37). -/

namespace Sys2Proof.Proofs

open Sys2Proof.Machine Sys2Proof.Claims

/-! ## When a step answers, and what it answers at a fetch fault -/

theorem not_step_of_ne_running {s : State} (h : s.run ≠ .running) (t : State) : step s ≠ .next t :=
  fun hstep => h (step_cases hstep).1

/-- From a RUNNING state a step always answers (R39). -/
theorem step_answers {s : State} (hr : s.run = .running) : ∃ t, step s = .next t := by
  cases hf : fetch s.config.prog s.pc with
  | fault f => exact ⟨_, step_of_fetch_fault hr hf⟩
  | word w =>
    rw [step_of_fetch_word hr hf]
    cases hd : decode s.config.jImmDecode w with
    | unsupported => exact ⟨_, stepWord_unsupported hd⟩
    | instr i =>
      obtain ⟨u, hu⟩ := exec_next i s
      exact ⟨u.complete, by rw [stepWord_instr hd, hu, finish_next]⟩

theorem step_of_misaligned {s : State} (hr : s.run = .running) (h : s.pc.toNat % 4 ≠ 0) :
    step s = .next (faultedAt s .pcOutOfBounds) := step_of_fetch_fault hr (fetch_misaligned h)

/-- Settles O41. -/
theorem runningStepAlwaysAnswers : Obligations.RunningStepAlwaysAnswers := by
  unfold Obligations.RunningStepAlwaysAnswers
  exact fun s hr => step_answers hr

/-- Settles O37: the fetch's answer in each range of the pc, taken over by the step. -/
theorem fetchFollowsTheProgramBounds : Obligations.FetchFollowsTheProgramBounds := by
  unfold Obligations.FetchFollowsTheProgramBounds
  intro s hr
  refine ⟨step_of_misaligned hr, fun h => step_of_fetch_fault hr (fetch_at_end h),
    fun h => step_of_fetch_fault hr (fetch_beyond h), fun halign hlt => ?_⟩
  have hw := List.getElem?_eq_getElem (Nat.div_lt_of_lt_mul hlt : s.pc.toNat / 4 < s.config.prog.length)
  exact ⟨_, hw, step_of_fetch_word hr (fetch_word halign hw)⟩

/-! ## The step of a decoded instruction -/

theorem complete_of_not_faultFree {s : State} (h : ¬ s.faultFree) : s.complete = s :=
  State.complete_of_faulted (Bool.not_eq_false _ ▸ h)

/-- An executed instruction and its step: recorded, or the bare fault (R39). -/
theorem exec_and_step {s : State} {w : Word} {i : Instr} (hr : s.run = .running) (hf : Fetches s w)
    (hd : decode s.config.jImmDecode w = .instr i) :
    ∃ u, exec i s = .next u ∧ (u.faultFree → step s = .next (recorded u)) ∧
      (¬ u.faultFree → step s = .next u ∧ ∃ f, u = faultedAt s f) := by
  refine ⟨_, exec_eq_effect i s, fun hff => ?_, fun hff => ⟨?_, ?_⟩⟩
  · rw [step_of_fetches hr hf hd, complete_of_faultFree hff]
  · rw [step_of_fetches hr hf hd, complete_of_not_faultFree hff]
  · obtain ⟨f, he⟩ | h := (effect s i).raise_or_faultFree hr
    · exact ⟨f, by rw [he]; rfl⟩
    · exact absurd h hff

/-- Settles O38. -/
theorem stepRunsTheDecodedInstruction : Obligations.StepRunsTheDecodedInstruction := by
  unfold Obligations.StepRunsTheDecodedInstruction
  intro s w i hr hf hd
  obtain ⟨u, hu, hrecord, hfault⟩ := exec_and_step hr hf hd
  exact ⟨u, hu, hrecord, fun h => (hfault h).1⟩

/-! ## The two decoders give one step (R72, R99) -/

theorem eq_blt_of_not_executable {i : Instr} (h : i.executable = false) : ∃ rs1 rs2 imm, i = .blt rs1 rs2 imm := by
  cases i with
  | blt rs1 rs2 imm => exact ⟨rs1, rs2, imm, rfl⟩
  | add | sub | slt | srl | or | and | lw | addi | jalr | sw | beq | bne | jal => cases h

/-- R72's decoder is the model's wherever it answers an instruction. -/
theorem decode_of_decodeExecutable {m : JImmDecode} {w : Word} {i : Instr} (h : decodeExecutable m w = .instr i) :
    decode m w = .instr i := by
  cases hd : decode m w with
  | unsupported => rw [decodeExecutable_of_unsupported hd] at h; cases h
  | instr j =>
    rw [decodeExecutable_of_instr hd] at h
    split at h
    · exact h
    · cases h

/-- Where R72's decoder answers Unsupported the word has no row, or it is BLT's (R99). -/
theorem unsupported_or_blt {m : JImmDecode} {w : Word} (h : decodeExecutable m w = .unsupported) :
    decode m w = .unsupported ∨ ∃ rs1 rs2 imm, decode m w = .instr (.blt rs1 rs2 imm) := by
  cases hd : decode m w with
  | unsupported => exact .inl rfl
  | instr i =>
    rw [decodeExecutable_of_instr hd] at h
    split at h
    · cases h
    · next hx =>
      obtain ⟨rs1, rs2, imm, rfl⟩ := eq_blt_of_not_executable (Bool.eq_false_iff.mpr hx)
      exact .inr ⟨rs1, rs2, imm, rfl⟩

/-- The fields of a B-type word, encoded again, are the word (R64). -/
theorem encodeB_fields {w : Word} (ho : opcodeOf w = opBranch) :
    encodeB (funct3Of w) (rs1Of w) (rs2Of w) (immB w) = w := by
  have h1 : regBits (rs1Of w) = w.extractLsb' 15 5 := rfl
  have h2 : regBits (rs2Of w) = w.extractLsb' 20 5 := rfl
  rw [encodeB, ← ho, h1, h2]
  apply BitVec.eq_of_getLsbD_eq
  intro i hi
  simp only [funct3Of, opcodeOf, immB, BitVec.getLsbD_append, BitVec.getLsbD_extractLsb', BitVec.getLsbD_signExtend]
  interval_cases i <;> simp

/-- A word read as BLT is the word of that BLT. -/
theorem encode_blt_of_decode {m : JImmDecode} {w : Word} {rs1 rs2 : RegId} {imm : Word}
    (h : decode m w = .instr (.blt rs1 rs2 imm)) : encode .standard (.blt rs1 rs2 imm) = w := by
  obtain ⟨ho, h3, rfl, rfl, rfl⟩ :
      opcodeOf w = opBranch ∧ funct3Of w = 0b100#3 ∧ rs1 = rs1Of w ∧ rs2 = rs2Of w ∧ imm = immB w := by
    simpa using decode_cases h
  rw [encode, ← h3]
  exact encodeB_fields ho

/-- A step that fetches a word R72 calls Unsupported faults with that word (R39, R99). -/
theorem step_of_unsupported {s : State} {w : Word} (hr : s.run = .running) (hf : Fetches s w)
    (h : decodeExecutable s.config.jImmDecode w = .unsupported) :
    step s = .next (faultedAt s (.unsupportedInstruction w)) := by
  obtain hd | ⟨rs1, rs2, imm, hd⟩ := unsupported_or_blt h
  · rw [step_of_fetch_word hr (fetch_eq_word_iff.mpr hf), stepWord_unsupported hd]
    rfl
  · rw [step_of_fetches hr hf hd, effect, encode_blt_of_decode hd]
    rfl

/-- Settles O39. -/
theorem stepIsFetchDecodeExecuteRecord : Obligations.StepIsFetchDecodeExecuteRecord := by
  unfold Obligations.StepIsFetchDecodeExecuteRecord
  intro s
  refine ⟨not_step_of_ne_running, fun hr hnone => ?_, fun w => step_of_unsupported,
    fun w i hr hf hd => exec_and_step hr hf (decode_of_decodeExecutable hd)⟩
  cases hf : fetch s.config.prog s.pc with
  | word w => exact absurd ⟨w, fetch_eq_word_iff.mp hf⟩ hnone
  | fault f => exact ⟨f, step_of_fetch_fault hr hf⟩

/-! ## The trace -/

/-- An effect does not read the trace. -/
theorem Effect.apply_withTrace (e : Effect) (s : State) (l : List TraceRecord) :
    e.apply { s with trace := l } = { e.apply s with trace := l } := by
  cases e with
  | write rd v pc =>
    simp only [Effect.apply, State.setReg]
    split <;> rfl
  | raise | goto | store | halt => rfl

/-- Completing a state appends its record to whatever trace it has, unless it has faulted (R39). -/
theorem complete_withTrace (s : State) (l : List TraceRecord) :
    State.complete { s with trace := l } =
      { s.complete with
        trace := if s.complete.run.isFaulted then l else l ++ [{ pc := s.complete.pc, regs := s.complete.regs }] } := by
  cases h : s.run.isFaulted <;> simp [State.complete, State.record, h]

/-- A step does not read the trace (R37). -/
theorem step_withTrace {s t : State} (h : step s = .next t) (l : List TraceRecord) :
    step { s with trace := l } =
      .next { t with trace := if t.run.isFaulted then l else l ++ [{ pc := t.pc, regs := t.regs }] } := by
  obtain ⟨hr, ⟨f, hf, rfl⟩ | ⟨w, hf, hd, rfl⟩ | ⟨w, i, u, hf, hd, hu, rfl⟩⟩ := step_cases h
  · exact step_of_fetch_fault (s := { s with trace := l }) hr hf
  · rw [step_of_fetch_word (s := { s with trace := l }) hr hf]
    exact stepWord_unsupported (s := { s with trace := l }) hd
  · have hsame : effect { s with trace := l } i = effect s i := effect_congr rfl rfl rfl fun _ _ => rfl
    rw [step_of_fetches (s := { s with trace := l }) hr (fetch_eq_word_iff.mp hf) hd, hsame, Effect.apply_withTrace,
      complete_withTrace, ← eq_apply_of_exec hu]

/-- Settles O49: a fault leaves the trace, a recorded effect appends its own record, and neither reads it. -/
theorem traceGrowsByOneRecordAndIsNeverRead : Obligations.TraceGrowsByOneRecordAndIsNeverRead := by
  unfold Obligations.TraceGrowsByOneRecordAndIsNeverRead
  refine ⟨State.launch_trace, fun s t hstep => ⟨fun hff => ?_, fun hff => ?_, step_withTrace hstep⟩⟩
  · obtain ⟨-, ⟨f, rfl⟩ | ⟨w, i, -, -, -, rfl⟩⟩ := step_raise_or_record hstep
    · cases hff
    · rw [recorded, Effect.apply_trace]
  · obtain ⟨-, ⟨f, rfl⟩ | ⟨w, i, -, -, hu, rfl⟩⟩ := step_raise_or_record hstep
    · rfl
    · exact absurd hu hff

end Sys2Proof.Proofs
end

section
/-! Runs: how they go on, where a branch or jump can lead, and BNE's hang (R30, R40, R98). -/

namespace Sys2Proof.Proofs

open Sys2Proof.Machine Sys2Proof.Claims

/-- Settles O45: by the number of steps; a state still RUNNING answers one more. -/
theorem runsGoOnUntilHaltedOrFaulted : Obligations.RunsGoOnUntilHaltedOrFaulted := by
  unfold Obligations.RunsGoOnUntilHaltedOrFaulted
  refine ⟨fun s => not_step_of_ne_running, fun s k hr => ?_⟩
  induction k with
  | zero => exact .inl ⟨s, rfl, hr⟩
  | succ k ih =>
    obtain ⟨t, ht, htr⟩ | ⟨j, t, hjk, ht, htr⟩ := ih
    · obtain ⟨u, hu⟩ := step_answers htr
      have hrun : runFor (k + 1) s = .next u := run_snoc_of_next ht hu
      by_cases hur : u.run = .running
      · exact .inl ⟨u, hrun, hur⟩
      · exact .inr ⟨k + 1, u, le_rfl, hrun, hur⟩
    · exact .inr ⟨j, t, Nat.le_succ_of_le hjk, ht, htr⟩

/-! ## Misaligned targets -/

/-- The sequencer's table gives anything but pc + 4 to a branch or a jump only; BLT, which it leaves in place, faults. -/
theorem transfersControl_or_sequential {s : State} {i : Instr} (h : ((effect s i).apply s).faultFree) :
    transfersControl i ∨ sequencerTable s i = s.pc.toNat + 4 := by
  cases i with
  | add | sub | slt | srl | or | and | lw | addi | sw => exact .inr rfl
  | jalr rd rs1 imm => exact .inl (.inl ⟨rd, rs1, imm, rfl⟩)
  | beq rs1 rs2 imm => exact .inl (.inr (.inl ⟨rs1, rs2, imm, rfl⟩))
  | bne rs1 rs2 imm => exact .inl (.inr (.inr (.inl ⟨rs1, rs2, imm, rfl⟩)))
  | jal rd imm => exact .inl (.inr (.inr (.inr ⟨rd, imm, rfl⟩)))
  | blt => cases h

/-- Settles O46: an aligned pc plus 4 is aligned, so a misaligned one comes from a branch or a jump. -/
theorem misalignedTargetsFaultAtTheNextFetch : Obligations.MisalignedTargetsFaultAtTheNextFetch := by
  unfold Obligations.MisalignedTargetsFaultAtTheNextFetch
  intro s t hstep htr hmis
  refine ⟨?_, step_of_misaligned htr hmis⟩
  obtain ⟨-, ⟨f, rfl⟩ | ⟨w, i, hf, hd, hff, rfl⟩⟩ := step_raise_or_record hstep
  · cases htr
  · refine ⟨w, i, hf, hd, (transfersControl_or_sequential hff).resolve_right fun hseq => hmis ?_⟩
    have hpc := effect_pc hff
    have halign := hf.1
    rw [hseq] at hpc
    show ((effect s i).apply s).pc.toNat % 4 = 0
    omega

/-! ## The hang -/

/-- BNE with immediate 0 and unequal values only adds a record (R98). -/
theorem step_of_bne_self {s : State} {w : Word} {rs1 rs2 : RegId} (hr : s.run = .running) (hf : Fetches s w)
    (hd : decode s.config.jImmDecode w = .instr (.bne rs1 rs2 0#32)) (hne : s.reg rs1 ≠ s.reg rs2) :
    step s = .next (recorded s) := by
  have heffect : (effect s (.bne rs1 rs2 0#32)).apply s = s := by
    obtain ⟨-, he⟩ | ⟨heq, -⟩ := effect_bne_cases s rs1 rs2 0#32
    · rw [he, pcRelative, BitVec.add_zero]
      rfl
    · exact absurd heq hne
  have hff : s.faultFree := by rw [State.faultFree, hr, RunState.isFaulted_running]
  rw [step_of_fetches hr hf hd, heffect, complete_of_faultFree hff]

/-- Settles O48: by the number of steps; the recorded state fetches the same BNE with the same values. -/
theorem bneToItselfNeverEnds : Obligations.BneToItselfNeverEnds := by
  unfold Obligations.BneToItselfNeverEnds
  intro s w rs1 rs2 hr hf hd hne k
  induction k generalizing s with
  | zero => exact ⟨s, rfl, hr, rfl, rfl, rfl, rfl⟩
  | succ k ih =>
    obtain ⟨t, ht, htr, hpc, hregs, hmem, hlen⟩ := ih (recorded s) hr hf hd hne
    have hrun : runFor (k + 1) s = .next t := (run_succ_of_next (step_of_bne_self hr hf hd hne) k).trans ht
    refine ⟨t, hrun, htr, hpc, hregs, hmem, ?_⟩
    rw [hlen, recorded, List.length_append, List.length_singleton]
    omega

end Sys2Proof.Proofs
end

section
/-! The data space: which addresses are resident, what a read and a write do, and when two data spaces are one (R43 to R48). -/

namespace Sys2Proof.Proofs

open Sys2Proof.Machine Sys2Proof.Claims

/-! ## The translator -/

/-- The keys of the resident mapping, counted (R43, R46). -/
theorem isResident_iff_exists_key {a : Nat} : isResident a ↔ ∃ k : Fin 32, a = 65536 + 4 * k.val := by
  constructor
  · intro h
    by_contra hnone
    exact not_isResident (fun k hk => hnone ⟨k, hk⟩) h
  · rintro ⟨k, rfl⟩
    simp only [isResident, resBase, resLast, resStep]
    omega

theorem translateAddress_eq_resident_iff {ea : Word} {k : Fin 32} :
    translateAddress ea = .resident k ↔ ea.toNat = 65536 + 4 * k.val := by
  obtain ⟨j, hj, -, hea⟩ | ⟨hs, hr⟩ := translateAddress_cases ea
  · simp only [resBase, resStep] at hea
    rw [hj, Location.resident.injEq, Fin.ext_iff]
    omega
  · rw [hs]
    exact ⟨nofun, fun hk => absurd (isResident_iff_exists_key.mpr ⟨k, hk⟩) hr⟩

theorem translateAddress_eq_scratch_iff {ea a : Word} :
    translateAddress ea = .scratch a ↔ a = ea ∧ ¬ isResident ea.toNat := by
  obtain ⟨k, hk, hr, -⟩ | ⟨hs, hr⟩ := translateAddress_cases ea
  · rw [hk]
    exact ⟨nofun, fun h => absurd hr h.2⟩
  · rw [hs, Location.scratch.injEq]
    exact ⟨fun h => ⟨h.symm, hr⟩, fun h => h.1.symm⟩

/-- Settles O30: the translator tests for the 32 keys, so it answers Scratch exactly off them. -/
theorem translatorIsKeyMembership : Obligations.TranslatorIsKeyMembership := by
  unfold Obligations.TranslatorIsKeyMembership
  refine fun ea => ⟨fun k => translateAddress_eq_resident_iff, fun a => ?_⟩
  rw [translateAddress_eq_scratch_iff, isResident_iff_exists_key, not_exists]

/-! ## Reads and writes -/

/-- In a canonical data space a scratch address reads exactly its entry (R47). -/
theorem read_eq_some_iff_mem_scratch {m : Memory} (hm : m.wf) {ea a v : Word} (h : translateAddress ea = .scratch a) :
    m.read ea = some v ↔ (a.toNat, v) ∈ m.scratch := by
  rw [Memory.read_scratch h, scratchLookup_eq_some_iff hm.1]

/-- Settles O31: an address with no entry is one that reads no value. -/
theorem readsFollowTheTranslator : Obligations.ReadsFollowTheTranslator := by
  unfold Obligations.ReadsFollowTheTranslator
  refine fun m ea hm => ⟨fun k => Memory.read_resident, fun a ha => ?_⟩
  have hentry : ∀ v, m.read ea = some v ↔ (a.toNat, v) ∈ m.scratch := fun v => read_eq_some_iff_mem_scratch hm ha
  refine ⟨hentry, ?_⟩
  rw [Option.eq_none_iff_forall_ne_some]
  exact forall_congr' fun v => not_congr (hentry v)

/-- Settles O32: the read after a write, and the one map that the translator picks. -/
theorem writesAreSeenAtTheirAddressOnly : Obligations.WritesAreSeenAtTheirAddressOnly := by
  unfold Obligations.WritesAreSeenAtTheirAddressOnly
  refine fun m ea v => ⟨m.read_write_same ea v, fun a => Memory.read_write_other, fun k hk => ?_, fun hs => ?_⟩
  · rw [Memory.write_resident hk]
    exact ⟨fun j => vector_get_set m.res k j v, rfl⟩
  · rw [Memory.write_scratch hs]

/-! ## The canonical form -/

/-- Every resident word has its address (R43). -/
theorem exists_address_of_key (k : Fin 32) : ∃ ea, translateAddress ea = .resident k := by
  refine ⟨BitVec.ofNat 32 (65536 + 4 * k.val), translateAddress_eq_resident_iff.mpr ?_⟩
  rw [BitVec.toNat_ofNat]
  omega

/-- Every scratch key is the number of an address that leads to scratch (R44). -/
theorem exists_address_of_scratchKey {a : Nat} (h : scratchKeyOk a) :
    ∃ ea : Word, ea.toNat = a ∧ translateAddress ea = .scratch ea := by
  have hea : (BitVec.ofNat 32 a).toNat = a := by rw [BitVec.toNat_ofNat, Nat.mod_eq_of_lt h.1]
  exact ⟨BitVec.ofNat 32 a, hea, translateAddress_of_not_resident (by rw [hea]; exact h.2)⟩

/-- A list of entries with strictly rising keys is fixed by its entries: no entry repeats, and there is one order. -/
theorem eq_of_mem_iff_of_keys_rising {l l' : List (Nat × Word)} (hl : (l.map Prod.fst).Pairwise (· < ·))
    (hl' : (l'.map Prod.fst).Pairwise (· < ·)) (h : ∀ e, e ∈ l ↔ e ∈ l') : l = l' := by
  have hperm : l.Perm l' := (List.perm_ext_iff_of_nodup (hl.nodup.of_map _) (hl'.nodup.of_map _)).mpr h
  exact hperm.eq_of_pairwise (fun _ _ _ _ hlt hgt => absurd hlt hgt.asymm) (List.pairwise_map.mp hl)
    (List.pairwise_map.mp hl')

section
variable {m n : Memory}

theorem res_eq_of_read_eq (h : ∀ a, m.read a = n.read a) : m.res = n.res := by
  refine Vector.ext fun i hi => ?_
  obtain ⟨ea, hea⟩ := exists_address_of_key ⟨i, hi⟩
  have hread := h ea
  rw [Memory.read_resident hea, Memory.read_resident hea] at hread
  exact Option.some.inj hread

/-- A scratch entry is read at its own address, so a data space that reads alike has it too. -/
theorem mem_scratch_of_read_eq (hm : m.wf) (hn : n.wf) (h : ∀ a, m.read a = n.read a) {e : Nat × Word}
    (he : e ∈ m.scratch) : e ∈ n.scratch := by
  obtain ⟨k, v⟩ := e
  obtain ⟨ea, rfl, hs⟩ := exists_address_of_scratchKey (hm.2 _ he)
  rw [← read_eq_some_iff_mem_scratch hn hs, ← h ea, read_eq_some_iff_mem_scratch hm hs]
  exact he

end

/-- Settles O33: the resident words are read at their addresses, and the scratch maps have the same entries. -/
theorem canonicalMemoriesThatReadAlikeAreEqual : Obligations.CanonicalMemoriesThatReadAlikeAreEqual := by
  unfold Obligations.CanonicalMemoriesThatReadAlikeAreEqual
  intro m n hm hn h
  have hres : m.res = n.res := res_eq_of_read_eq h
  have hscratch : m.scratch = n.scratch := eq_of_mem_iff_of_keys_rising hm.1 hn.1 fun _ =>
    ⟨mem_scratch_of_read_eq hm hn h, mem_scratch_of_read_eq hn hm fun a => (h a).symm⟩
  exact congrArg₂ Memory.mk hres hscratch

end Sys2Proof.Proofs
end

section
/-! The data space and the program under an instruction and a step: only SW writes the one, nothing reaches the other
(R54, R57). -/

namespace Sys2Proof.Proofs

open Sys2Proof.Machine Sys2Proof.Claims

/-! ## LW after SW -/

section
variable (s : State) (rd : RegId) (v pc : Word)

theorem Effect.write_writesOnly : WritesOnly s ((Effect.write rd v pc).apply s) rd v := fun r => State.setReg_get s rd r v

theorem Effect.write_mem : ((Effect.write rd v pc).apply s).mem = s.mem := by
  rw [Effect.apply, State.setPc_mem, State.setReg_mem]

end

theorem keepsMemory_of_mem_eq {s t : State} (h : t.mem = s.mem) : KeepsMemory s t := ⟨fun _ => by rw [h], h⟩

/-- LW from an address that reads a value loads it and leaves the data space (R91). -/
theorem exec_lw_of_read {s : State} {rd rs1 : RegId} {imm v : Word} (h : s.mem.read (effectiveAddress s rs1 imm) = some v) :
    ∃ t, exec (.lw rd rs1 imm) s = .next t ∧ WritesOnly s t rd v ∧ KeepsMemory s t := by
  refine ⟨_, exec_eq_effect _ s, ?_⟩
  rw [effect, loadEffect_of_read h]
  exact ⟨Effect.write_writesOnly s rd v _, keepsMemory_of_mem_eq (Effect.write_mem s rd v _)⟩

/-- Settles O34: the address reads the stored word, whichever map it is in. -/
theorem loadAfterStoreGivesTheStoredWord : Obligations.LoadAfterStoreGivesTheStoredWord := by
  unfold Obligations.LoadAfterStoreGivesTheStoredWord
  intro s t rs1 rs2 imm rd rs1' imm' hsw hea
  apply exec_lw_of_read
  rw [hea, eq_apply_of_exec hsw]
  exact Memory.read_write_same s.mem _ _

/-! ## What changes the data space -/

/-- An instruction leaves the data space, or it is SW and writes its one word (R54, R94). -/
theorem exec_mem_cases {i : Instr} {s t : State} (h : exec i s = .next t) :
    t.mem = s.mem ∨ ∃ rs1 rs2 imm, i = .sw rs1 rs2 imm ∧
      t.mem = s.mem.write (effectiveAddress s rs1 imm) (s.reg rs2) := by
  obtain ⟨f, ht⟩ | ⟨rd, v, pc', ht⟩ | ⟨rs1, rs2, imm, hi, ht⟩ | ⟨rs1, rs2, -, -, ht⟩ := exec_cases i s <;>
    rw [ht] at h <;> cases h
  · exact .inl rfl
  · exact .inl (Effect.write_mem s rd v pc')
  · exact .inr ⟨rs1, rs2, imm, hi, rfl⟩
  · exact .inl rfl

/-- The same for a step: the fault and the trace record are no write (R39, R104). -/
theorem step_mem_cases {s t : State} (h : step s = .next t) :
    t.mem = s.mem ∨ ∃ w rs1 rs2 imm, Fetches s w ∧ decode s.config.jImmDecode w = .instr (.sw rs1 rs2 imm) ∧
      t.mem = s.mem.write (effectiveAddress s rs1 imm) (s.reg rs2) := by
  obtain ⟨-, ⟨f, -, rfl⟩ | ⟨w, -, -, rfl⟩ | ⟨w, i, u, hf, hd, hu, rfl⟩⟩ := step_cases h
  · exact .inl rfl
  · exact .inl rfl
  · rw [State.complete_mem]
    refine (exec_mem_cases hu).imp_right ?_
    rintro ⟨rs1, rs2, imm, rfl, hmem⟩
    exact ⟨w, rs1, rs2, imm, fetch_eq_word_iff.mp hf, hd, hmem⟩

/-- Settles O35: SW's write is seen at its own address, where it leaves a value. -/
theorem onlySwChangesADataWord : Obligations.OnlySwChangesADataWord := by
  unfold Obligations.OnlySwChangesADataWord
  intro s t a hstep
  obtain hmem | ⟨w, rs1, rs2, imm, hf, hd, hmem⟩ := step_mem_cases hstep <;> rw [hmem]
  · exact ⟨fun hne => absurd rfl hne, id⟩
  · by_cases ha : a = effectiveAddress s rs1 imm
    · rw [ha, Memory.read_write_same]
      exact ⟨fun _ => ⟨w, rs1, rs2, imm, hf, hd, rfl, rfl⟩, fun _ => rfl⟩
    · rw [Memory.read_write_other ha]
      exact ⟨fun hne => absurd rfl hne, id⟩

/-! ## The program -/

/-- An effect does not read the configuration. -/
theorem Effect.apply_withConfig (e : Effect) (s : State) (c : Config) :
    e.apply { s with config := c } = { e.apply s with config := c } := by
  cases e with
  | write rd v pc =>
    simp only [Effect.apply, State.setReg]
    split <;> rfl
  | raise | goto | store | halt => rfl

/-- Of the configuration an instruction's effect depends on `LW_UNMAPPED` only (R91). -/
theorem effect_withConfig (i : Instr) (s : State) {c : Config} (hc : c.lwUnmapped = s.config.lwUnmapped) :
    effect { s with config := c } i = effect s i := by
  cases i with
  | lw rd rs1 imm =>
    show loadEffect { s with config := c } rd (effectiveAddress s rs1 imm) = loadEffect s rd (effectiveAddress s rs1 imm)
    simp only [loadEffect, hc, State.pcNext]
  | add | sub | slt | srl | or | and | addi | jalr | sw | beq | bne | blt | jal => rfl

/-- Another configuration with the same `LW_UNMAPPED` passes through an execution. -/
theorem exec_withConfig {i : Instr} {s t : State} (h : exec i s = .next t) {c : Config}
    (hc : c.lwUnmapped = s.config.lwUnmapped) : exec i { s with config := c } = .next { t with config := c } := by
  rw [exec_eq_effect, effect_withConfig i s hc, Effect.apply_withConfig, ← eq_apply_of_exec h]

theorem step_config {s t : State} (h : step s = .next t) : t.config = s.config := by
  obtain ⟨-, ⟨f, rfl⟩ | ⟨w, i, -, -, -, rfl⟩⟩ := step_raise_or_record h
  · rfl
  · exact Effect.apply_config s (effect s i)

/-- Settles O36: the effect is the same with another program, and applying it does not read the program. -/
theorem executionNeverReachesTheProgram : Obligations.ExecutionNeverReachesTheProgram := by
  unfold Obligations.ExecutionNeverReachesTheProgram
  refine ⟨fun s t => step_config, fun i s t p hexec => ?_⟩
  have hcfg : t.config = s.config := by rw [eq_apply_of_exec hexec, Effect.apply_config]
  rw [hcfg]
  exact exec_withConfig hexec rfl

end Sys2Proof.Proofs
end

section
/-! The immediates (R66 to R69): each is a bit string of the word, sign-extended, but the literal JAL immediate, which is
zero-extended. -/

namespace Sys2Proof.Proofs

open Sys2Proof.Machine Sys2Proof.Claims

/-! ## Fields and sign-extended patterns as numbers -/

theorem field_lt (w : Word) (hi lo : Nat) : field w hi lo < 2 ^ (hi - lo + 1) := Nat.mod_lt _ (Nat.two_pow_pos _)

section
variable {n : Nat} (hn : n ≤ 32) (x : BitVec n)
include hn

theorem toInt_signExtend : (x.signExtend 32).toInt = signedOf n x.toNat := by
  rw [BitVec.toInt_signExtend_of_le hn, signedOf_toNat]

theorem toInt_signExtend_mem_range :
    -(2 : Int) ^ (n - 1) ≤ (x.signExtend 32).toInt ∧ (x.signExtend 32).toInt < 2 ^ (n - 1) := by
  rw [BitVec.toInt_signExtend_of_le hn]
  exact ⟨BitVec.le_toInt x, BitVec.toInt_lt⟩

theorem fitsSigned_signExtend : fitsSigned n (x.signExtend 32) = true := decide_eq_true (toInt_signExtend_mem_range hn x)

/-- Sign extension keeps zero apart from every other pattern. -/
theorem signExtend_eq_zero_iff : x.signExtend 32 = 0#32 ↔ x.toNat = 0 := by
  rw [← BitVec.toInt_inj, BitVec.toInt_signExtend_of_le hn, BitVec.toInt_zero, ← BitVec.toInt_zero (w := n),
    BitVec.toInt_inj, ← BitVec.toNat_inj, BitVec.toNat_ofNat, Nat.zero_mod]

/-- The bits of a pattern are still there after its sign extension. -/
theorem extractLsb'_signExtend {lo len : Nat} (h : lo + len ≤ n) :
    (x.signExtend 32).extractLsb' lo len = x.extractLsb' lo len := by
  apply BitVec.eq_of_getLsbD_eq
  intro i hi
  rw [BitVec.getLsbD_extractLsb', BitVec.getLsbD_extractLsb', BitVec.getLsbD_signExtend, if_pos (by omega),
    decide_eq_true (show lo + i < 32 by omega), Bool.true_and]

end

theorem isEven_iff_toInt {v : Word} : isEven v = true ↔ v.toInt % 2 = 0 := by
  rw [isEven, decide_eq_true_eq, BitVec.toInt_eq_toNat_cond]
  split <;> omega

/-- A pattern that ends in a zero bit extends to an even word. -/
theorem isEven_signExtend_append_zero {n : Nat} (hn : n + 1 ≤ 32) (x : BitVec n) :
    isEven ((x ++ 0#1).signExtend 32) = true := by
  have hbit : ((x ++ 0#1).signExtend 32).extractLsb' 0 1 = 0#1 := by
    rw [extractLsb'_signExtend hn _ (by omega), BitVec.extractLsb'_append_eq_right]
  have hnum := congrArg BitVec.toNat hbit
  rw [extract_toNat, Nat.pow_zero, Nat.div_one] at hnum
  exact decide_eq_true hnum

/-! ## The immediates as the rules write them -/

theorem immI_toInt_eq_signedOf (w : Word) : (immI w).toInt = signedOf 12 (field w 31 20) := by
  rw [immI, toInt_signExtend (by decide), extract_toNat]
  rfl

theorem immS_toInt_eq_signedOf (w : Word) : (immS w).toInt = signedOf 12 (patternS w) := by
  rw [immS, toInt_signExtend (by decide), append_toNat, extract_toNat, extract_toNat]
  rfl

/-- The bit string that `immB` extends, as a number. -/
theorem patternB_eq_toNat (w : Word) :
    (w.extractLsb' 31 1 ++ w.extractLsb' 7 1 ++ w.extractLsb' 25 6 ++ w.extractLsb' 8 4 ++ 0#1).toNat = patternB w := by
  simp only [append_toNat, extract_toNat, patternB, field, BitVec.toNat_ofNat]
  omega

theorem immB_toInt_eq_signedOf (w : Word) : (immB w).toInt = signedOf 13 (patternB w) := by
  rw [immB, toInt_signExtend (by decide), patternB_eq_toNat]

theorem immJ_standard_toInt_eq_signedOf (w : Word) : (immJ .standard w).toInt = signedOf 21 (patternJ w) := by
  rw [immJ, toInt_signExtend (by decide)]
  simp only [append_toNat, extract_toNat, patternJ, field, BitVec.toNat_ofNat]
  congr 1
  omega

theorem immJ_literal_toNat_eq_patternJLiteral (w : Word) : (immJ .literal w).toNat = patternJLiteral w := by
  rw [immJ, BitVec.toNat_setWidth_of_le (by decide)]
  simp only [append_toNat, extract_toNat, patternJLiteral, field]
  omega

/-! ## Their ranges -/

theorem immI_fitsSigned (w : Word) : fitsSigned 12 (immI w) = true := fitsSigned_signExtend (by decide) _

theorem immS_fitsSigned (w : Word) : fitsSigned 12 (immS w) = true := fitsSigned_signExtend (by decide) _

theorem immB_fitsSigned (w : Word) : fitsSigned 13 (immB w) = true := fitsSigned_signExtend (by decide) _

theorem immB_isEven (w : Word) : isEven (immB w) = true := isEven_signExtend_append_zero (by decide) _

theorem immJ_standard_fitsSigned (w : Word) : fitsSigned 21 (immJ .standard w) = true := fitsSigned_signExtend (by decide) _

theorem immJ_standard_isEven (w : Word) : isEven (immJ .standard w) = true := isEven_signExtend_append_zero (by decide) _

theorem patternJLiteral_lt (w : Word) : patternJLiteral w < 2 ^ 20 := by
  have h12 := field_lt w 19 12
  have h20 := field_lt w 20 20
  have h21 := field_lt w 30 21
  have h31 := field_lt w 31 31
  rw [patternJLiteral]
  omega

theorem patternJLiteral_mod_two (w : Word) : patternJLiteral w % 2 = field w 31 31 := by
  have h31 := field_lt w 31 31
  rw [patternJLiteral]
  omega

/-- The JAL immediate is in the range of its reading (R69). -/
theorem immJ_wf (m : JImmDecode) (w : Word) : jImmWf m (immJ m w) = true := by
  cases m with
  | standard => rw [jImmWf, immJ_standard_fitsSigned, immJ_standard_isEven, Bool.and_true]
  | literal =>
    rw [jImmWf, immJ_literal_toNat_eq_patternJLiteral]
    exact decide_eq_true (patternJLiteral_lt w)

/-! ## When immB is 0, and where the two JAL readings agree -/

theorem immB_eq_zero_iff (w : Word) :
    immB w = 0#32 ↔ field w 31 31 = 0 ∧ field w 7 7 = 0 ∧ field w 30 25 = 0 ∧ field w 11 8 = 0 := by
  rw [immB, signExtend_eq_zero_iff (by decide), patternB_eq_toNat, patternB]
  omega

/-- Under `standard` the top bit weighs -2^20, under `literal` it is bit 0 of a number that is not negative. -/
theorem immJ_standard_eq_literal_iff (w : Word) : immJ .standard w = immJ .literal w ↔ field w 31 31 = 0 := by
  have hlt := patternJLiteral_lt w
  have hlit : (immJ .literal w).toInt = patternJLiteral w := by
    rw [BitVec.toInt_eq_toNat_of_lt] <;> rw [immJ_literal_toNat_eq_patternJLiteral]
    omega
  have h31 := field_lt w 31 31
  rw [← BitVec.toInt_inj, hlit, immJ_standard_toInt_eq_signedOf, signedOf, patternJ]
  rw [patternJLiteral] at hlt ⊢
  split <;> omega

/-- The numbers of a signed range, the ends included. -/
theorem toInt_mem_of_fitsSigned {n : Nat} {v : Word} (h : fitsSigned n v = true) :
    -(2 : Int) ^ (n - 1) ≤ v.toInt ∧ v.toInt ≤ 2 ^ (n - 1) - 1 := by
  rw [fitsSigned, decide_eq_true_eq] at h
  exact ⟨h.1, Int.le_sub_one_of_lt h.2⟩

/-- Settles O20: each immediate is an extended bit string, which fixes its value and its range; the last bit of a B or
standard J string is 0, so the largest value is one below the range's end. -/
theorem immediatesFollowTheFormatTables : Obligations.ImmediatesFollowTheFormatTables := by
  unfold Obligations.ImmediatesFollowTheFormatTables
  intro w
  have hB := toInt_mem_of_fitsSigned (immB_fitsSigned w)
  have hB2 := isEven_iff_toInt.mp (immB_isEven w)
  have hJ := toInt_mem_of_fitsSigned (immJ_standard_fitsSigned w)
  have hJ2 := isEven_iff_toInt.mp (immJ_standard_isEven w)
  refine ⟨⟨immI_toInt_eq_signedOf w, toInt_mem_of_fitsSigned (immI_fitsSigned w)⟩,
    ⟨immS_toInt_eq_signedOf w, toInt_mem_of_fitsSigned (immS_fitsSigned w)⟩,
    ⟨immB_toInt_eq_signedOf w, hB2, by omega, by omega, immB_eq_zero_iff w⟩,
    ⟨immJ_standard_toInt_eq_signedOf w, hJ2, by omega, by omega⟩, ?_, immJ_standard_eq_literal_iff w⟩
  rw [immJ_literal_toNat_eq_patternJLiteral]
  exact ⟨rfl, Nat.le_sub_one_of_lt (patternJLiteral_lt w), patternJLiteral_mod_two w⟩

end Sys2Proof.Proofs
end

section
/-! The rows of the opcode table (R71, R72): a word decodes to an instruction exactly when it fits the instruction's row and
carries its operands, and encoding writes exactly those fields (R61 to R65). -/

namespace Sys2Proof.Proofs

open Sys2Proof.Machine Sys2Proof.Claims

/-! ## The row of an instruction and the operands of a word -/

/-- The instruction of the same row, with the operands that the word carries (R61 to R70). -/
def withOperandsOf (m : JImmDecode) (w : Word) : Instr → Instr
  | .add .. => .add (rdOf w) (rs1Of w) (rs2Of w)
  | .sub .. => .sub (rdOf w) (rs1Of w) (rs2Of w)
  | .slt .. => .slt (rdOf w) (rs1Of w) (rs2Of w)
  | .srl .. => .srl (rdOf w) (rs1Of w) (rs2Of w)
  | .or .. => .or (rdOf w) (rs1Of w) (rs2Of w)
  | .and .. => .and (rdOf w) (rs1Of w) (rs2Of w)
  | .lw .. => .lw (rdOf w) (rs1Of w) (immI w)
  | .addi .. => .addi (rdOf w) (rs1Of w) (immI w)
  | .jalr .. => .jalr (rdOf w) (rs1Of w) (immI w)
  | .sw .. => .sw (rs1Of w) (rs2Of w) (immS w)
  | .beq .. => .beq (rs1Of w) (rs2Of w) (immB w)
  | .bne .. => .bne (rs1Of w) (rs2Of w) (immB w)
  | .blt .. => .blt (rs1Of w) (rs2Of w) (immB w)
  | .jal .. => .jal (rdOf w) (immJ m w)

/-- The word fits the row of the instruction. -/
abbrev FitsRow (w : Word) (i : Instr) : Prop := w &&& i.rowMask = i.rowMatch

section
variable (m : JImmDecode) (w : Word) (i : Instr)

theorem rowMask_withOperandsOf : (withOperandsOf m w i).rowMask = i.rowMask := by cases i <;> rfl

theorem rowMatch_withOperandsOf : (withOperandsOf m w i).rowMatch = i.rowMatch := by cases i <;> rfl

theorem executable_withOperandsOf : (withOperandsOf m w i).executable = i.executable := by cases i <;> rfl

end

/-! ## Decoding by rows -/

/-- A word that fits a row decodes to that row's instruction: the row's match has the funct7, funct3 and opcode that the
decoder compares with. -/
theorem decode_of_fitsRow (m : JImmDecode) {w : Word} {i : Instr} (h : FitsRow w i) :
    decode m w = .instr (withOperandsOf m w i) := by
  cases i <;> dsimp only [FitsRow, Instr.rowMask, Instr.rowMatch] at h
  case add | sub | slt | srl | or | and =>
    obtain ⟨h7, h3, ho⟩ := fields_of_rowMaskR h
    rw [decode_opR ho, decodeR, h7, h3]
    rfl
  case lw =>
    obtain ⟨h3, ho⟩ := fields_of_rowMask3 h
    exact (decode_opLoad ho).trans (if_pos h3)
  case addi =>
    obtain ⟨h3, ho⟩ := fields_of_rowMask3 h
    exact (decode_opImm ho).trans (if_pos h3)
  case jalr =>
    obtain ⟨h3, ho⟩ := fields_of_rowMask3 h
    exact (decode_opJalr ho).trans (if_pos h3)
  case sw =>
    obtain ⟨h3, ho⟩ := fields_of_rowMask3 h
    exact (decode_opStore ho).trans (if_pos h3)
  case beq | bne | blt =>
    obtain ⟨h3, ho⟩ := fields_of_rowMask3 h
    rw [decode_opBranch ho, decodeB, h3]
    rfl
  case jal => exact decode_opJal (opcode_of_rowMaskJ h)

/-- A word that decodes to an instruction fits the instruction's row. -/
theorem fitsRow_of_decode {m : JImmDecode} {w : Word} {i : Instr} (h : decode m w = .instr i) : FitsRow w i := by
  obtain ⟨ho, h7, h3, rfl⟩ | ⟨ho, h7, h3, rfl⟩ | ⟨ho, h7, h3, rfl⟩ | ⟨ho, h7, h3, rfl⟩ | ⟨ho, h7, h3, rfl⟩ |
    ⟨ho, h7, h3, rfl⟩ | ⟨ho, h3, rfl⟩ | ⟨ho, h3, rfl⟩ | ⟨ho, h3, rfl⟩ | ⟨ho, h3, rfl⟩ | ⟨ho, h3, rfl⟩ | ⟨ho, h3, rfl⟩ |
    ⟨ho, h3, rfl⟩ | ⟨ho, rfl⟩ := decode_cases h
  iterate 6 exact Laws.and_rowMaskR h7 h3 ho
  iterate 7 exact Laws.and_rowMask3 h3 ho
  exact Laws.and_rowMaskJ ho

/-- Settles O22: decoding and fitting a row are the two directions. -/
theorem decodedRowIsTheTableRow : Obligations.DecodedRowIsTheTableRow := by
  unfold Obligations.DecodedRowIsTheTableRow
  exact fun m w => ⟨fun i => fitsRow_of_decode, fun i h =>
    ⟨withOperandsOf m w i, decode_of_fitsRow m h, rowMask_withOperandsOf m w i, rowMatch_withOperandsOf m w i⟩⟩

/-! ## Decoding an encoded instruction -/

/-- An encoded instruction fits its row, whatever its operands are. -/
theorem fitsRow_encode (m : JImmDecode) (i : Instr) : FitsRow (encode m i) i := by
  cases i with
  | add rd rs1 rs2 => exact Laws.RowMatch.add rd rs1 rs2 m
  | sub rd rs1 rs2 => exact Laws.RowMatch.sub rd rs1 rs2 m
  | slt rd rs1 rs2 => exact Laws.RowMatch.slt rd rs1 rs2 m
  | srl rd rs1 rs2 => exact Laws.RowMatch.srl rd rs1 rs2 m
  | or rd rs1 rs2 => exact Laws.RowMatch.or rd rs1 rs2 m
  | and rd rs1 rs2 => exact Laws.RowMatch.and rd rs1 rs2 m
  | lw rd rs1 imm => exact Laws.RowMatch.lw rd rs1 imm m
  | addi rd rs1 imm => exact Laws.RowMatch.addi rd rs1 imm m
  | jalr rd rs1 imm => exact Laws.RowMatch.jalr rd rs1 imm m
  | sw rs1 rs2 imm => exact Laws.RowMatch.sw rs1 rs2 imm m
  | beq rs1 rs2 imm => exact Laws.RowMatch.beq rs1 rs2 imm m
  | bne rs1 rs2 imm => exact Laws.RowMatch.bne rs1 rs2 imm m
  | blt rs1 rs2 imm => exact Laws.RowMatch.blt rs1 rs2 imm m
  | jal rd imm => exact Laws.RowMatch.jal rd imm m

/-- The word of a well-formed instruction carries its operands. -/
theorem withOperandsOf_encode {m : JImmDecode} {i : Instr} (h : i.wf m = true) : withOperandsOf m (encode m i) i = i := by
  cases i with
  | add | sub | slt | srl | or | and => simp only [withOperandsOf, encode, fields_encodeR]
  | lw | addi | jalr => simp only [withOperandsOf, encode, fields_encodeI, immI_encodeI _ _ _ _ h]
  | sw => simp only [withOperandsOf, encode, fields_encodeS, immS_encodeS _ _ _ h]
  | beq | bne | blt => simp only [withOperandsOf, encode, fields_encodeB, immB_encodeB _ _ _ h]
  | jal => simp only [withOperandsOf, encode, fields_encodeJ, immJ_encodeJ _ _ h]

/-- Settles O18: the encoded word fits the row and carries the operands. -/
theorem decodeOfEncodeIsIdentity : Obligations.DecodeOfEncodeIsIdentity := by
  unfold Obligations.DecodeOfEncodeIsIdentity
  intro m i h
  rw [decode_of_fitsRow m (fitsRow_encode m i), withOperandsOf_encode h]

/-! ## Encoding a decoded instruction -/

/-- Neighbouring fields of a word, side by side, are one field (R15): the library's law, with the fields' places as
explicit arguments, which unification cannot find among numerals. -/
theorem append_extract (w : Word) (mid lo a b : Nat) (h : mid = lo + a) :
    w.extractLsb' mid b ++ w.extractLsb' lo a = w.extractLsb' lo (b + a) :=
  BitVec.extractLsb'_append_extractLsb'_eq_extractLsb' h

/-- A word is the six fields of the R-type format, side by side (R61). -/
theorem append_fields (w : Word) : funct7Of w ++ w.extractLsb' 20 5 ++ w.extractLsb' 15 5 ++ funct3Of w ++
    w.extractLsb' 7 5 ++ opcodeOf w = w := by
  rw [funct7Of, funct3Of, opcodeOf, append_extract w 25 20 5 7 rfl, append_extract w 20 15 5 12 rfl,
    append_extract w 15 12 3 17 rfl, append_extract w 12 7 5 20 rfl, append_extract w 7 0 7 25 rfl]
  exact BitVec.extractLsb'_eq_self

/-- A word is also the six fields of the J-type format (R65). -/
theorem append_fieldsJ (w : Word) : w.extractLsb' 31 1 ++ w.extractLsb' 21 10 ++ w.extractLsb' 20 1 ++ w.extractLsb' 12 8 ++
    w.extractLsb' 7 5 ++ opcodeOf w = w := by
  rw [opcodeOf, append_extract w 31 21 10 1 rfl, append_extract w 21 20 1 11 rfl, append_extract w 20 12 8 12 rfl,
    append_extract w 12 7 5 20 rfl, append_extract w 7 0 7 25 rfl]
  exact BitVec.extractLsb'_eq_self

section
variable {w : Word} {op f7 : BitVec 7} {f3 : BitVec 3}

theorem encodeR_of_fields (ho : opcodeOf w = opR) (h7 : funct7Of w = f7) (h3 : funct3Of w = f3) :
    encodeR f7 f3 (rdOf w) (rs1Of w) (rs2Of w) = w := by
  rw [encodeR, ← ho, ← h7, ← h3]
  exact append_fields w

theorem encodeI_of_fields (ho : opcodeOf w = op) (h3 : funct3Of w = f3) : encodeI op f3 (rdOf w) (rs1Of w) (immI w) = w := by
  have himm : (immI w).extractLsb' 0 12 = funct7Of w ++ w.extractLsb' 20 5 := by
    rw [immI, extractLsb'_signExtend (by decide) _ (by decide), BitVec.extractLsb'_eq_self, funct7Of,
      append_extract w 25 20 5 7 rfl]
  rw [encodeI, himm, ← ho, ← h3]
  exact append_fields w

theorem encodeS_of_fields (ho : opcodeOf w = opStore) (h3 : funct3Of w = f3) :
    encodeS f3 (rs1Of w) (rs2Of w) (immS w) = w := by
  have hhi : (immS w).extractLsb' 5 7 = funct7Of w := by
    rw [immS, extractLsb'_signExtend (by decide) _ (by decide), BitVec.extractLsb'_append_eq_left, funct7Of]
  have hlo : (immS w).extractLsb' 0 5 = w.extractLsb' 7 5 := by
    rw [immS, extractLsb'_signExtend (by decide) _ (by decide), BitVec.extractLsb'_append_eq_right]
  rw [encodeS, hhi, hlo, ← ho, ← h3]
  exact append_fields w

theorem encodeB_of_fields (ho : opcodeOf w = opBranch) (h3 : funct3Of w = f3) :
    encodeB f3 (rs1Of w) (rs2Of w) (immB w) = w := by
  rw [← h3]
  exact encodeB_fields ho

/-- The bits of the standard JAL immediate in the places they came from (R69). -/
theorem extract_immJ_standard (w : Word) :
    (immJ .standard w).extractLsb' 20 1 = w.extractLsb' 31 1 ∧ (immJ .standard w).extractLsb' 12 8 = w.extractLsb' 12 8 ∧
    (immJ .standard w).extractLsb' 11 1 = w.extractLsb' 20 1 ∧ (immJ .standard w).extractLsb' 1 10 = w.extractLsb' 21 10 := by
  simp only [immJ]
  refine ⟨?_, ?_, ?_, ?_⟩ <;> rw [extractLsb'_signExtend (by decide) _ (by decide)]
  · iterate 4 rw [BitVec.extractLsb'_append_eq_of_le (by decide)]
    exact BitVec.extractLsb'_eq_self
  · iterate 3 rw [BitVec.extractLsb'_append_eq_of_le (by decide)]
    exact BitVec.extractLsb'_append_eq_right
  · iterate 2 rw [BitVec.extractLsb'_append_eq_of_le (by decide)]
    exact BitVec.extractLsb'_append_eq_right
  · rw [BitVec.extractLsb'_append_eq_of_le (by decide)]
    exact BitVec.extractLsb'_append_eq_right

theorem extract_immJ_literal (w : Word) :
    (immJ .literal w).extractLsb' 0 1 = w.extractLsb' 31 1 ∧ (immJ .literal w).extractLsb' 12 8 = w.extractLsb' 12 8 ∧
    (immJ .literal w).extractLsb' 11 1 = w.extractLsb' 20 1 ∧ (immJ .literal w).extractLsb' 1 10 = w.extractLsb' 21 10 := by
  simp only [immJ]
  refine ⟨?_, ?_, ?_, ?_⟩ <;> rw [BitVec.extractLsb'_setWidth_of_le (by decide)]
  · exact BitVec.extractLsb'_append_eq_right
  · iterate 3 rw [BitVec.extractLsb'_append_eq_of_le (by decide)]
    exact BitVec.extractLsb'_eq_self
  · iterate 2 rw [BitVec.extractLsb'_append_eq_of_le (by decide)]
    exact BitVec.extractLsb'_append_eq_right
  · rw [BitVec.extractLsb'_append_eq_of_le (by decide)]
    exact BitVec.extractLsb'_append_eq_right

theorem encodeJ_of_fields (m : JImmDecode) (ho : opcodeOf w = opJal) : encodeJ m (rdOf w) (immJ m w) = w := by
  cases m with
  | standard =>
    obtain ⟨htop, h12, h11, h1⟩ := extract_immJ_standard w
    rw [encodeJ, htop, h12, h11, h1, ← ho]
    exact append_fieldsJ w
  | literal =>
    obtain ⟨htop, h12, h11, h1⟩ := extract_immJ_literal w
    rw [encodeJ, htop, h12, h11, h1, ← ho]
    exact append_fieldsJ w

end

/-- The operands of a word are in their ranges (R66 to R69). -/
theorem withOperandsOf_wf (m : JImmDecode) (w : Word) (i : Instr) : (withOperandsOf m w i).wf m = true := by
  cases i with
  | add | sub | slt | srl | or | and => rfl
  | lw | addi | jalr => exact immI_fitsSigned w
  | sw => exact immS_fitsSigned w
  | beq | bne | blt => rw [withOperandsOf, Instr.wf, immB_fitsSigned, immB_isEven, Bool.and_true]
  | jal => exact immJ_wf m w

/-- A word is the encoding of the operands it carries, in the row it fits. -/
theorem encode_withOperandsOf (m : JImmDecode) {w : Word} {i : Instr} (h : FitsRow w i) :
    encode m (withOperandsOf m w i) = w := by
  cases i <;> dsimp only [FitsRow, Instr.rowMask, Instr.rowMatch] at h
  case add | sub | slt | srl | or | and =>
    obtain ⟨h7, h3, ho⟩ := fields_of_rowMaskR h
    exact encodeR_of_fields ho h7 h3
  case lw | addi | jalr =>
    obtain ⟨h3, ho⟩ := fields_of_rowMask3 h
    exact encodeI_of_fields ho h3
  case sw =>
    obtain ⟨h3, ho⟩ := fields_of_rowMask3 h
    exact encodeS_of_fields ho h3
  case beq | bne | blt =>
    obtain ⟨h3, ho⟩ := fields_of_rowMask3 h
    exact encodeB_of_fields ho h3
  case jal => exact encodeJ_of_fields m (opcode_of_rowMaskJ h)

/-- Settles O19: the decoded instruction is the one whose operands the word carries, and the word fits its row. -/
theorem encodeOfDecodeIsIdentity : Obligations.EncodeOfDecodeIsIdentity := by
  unfold Obligations.EncodeOfDecodeIsIdentity
  intro m w i h
  have hfit := fitsRow_of_decode h
  have hi : withOperandsOf m w i = i := Decoded.instr.inj ((decode_of_fitsRow m hfit).symm.trans h)
  exact ⟨hi ▸ withOperandsOf_wf m w i, hi ▸ encode_withOperandsOf m hfit⟩

end Sys2Proof.Proofs
end

section
/-! Unsupported words (R72, R73), the literal JAL's odd jump (R69, R100), and the sample words. -/

namespace Sys2Proof.Proofs

open Sys2Proof.Machine Sys2Proof.Claims

/-! ## The 13 executable rows -/

/-- One instruction of each executable row, in the order of `executableRows`. -/
def rowExamples : List Instr :=
  [.add 0 0 0, .sub 0 0 0, .slt 0 0 0, .srl 0 0 0, .or 0 0 0, .and 0 0 0, .lw 0 0 0, .addi 0 0 0, .jalr 0 0 0, .sw 0 0 0,
   .beq 0 0 0, .bne 0 0 0, .jal 0 0]

theorem executableRows_eq_map : executableRows = rowExamples.map fun i => (i.rowMask, i.rowMatch) := rfl

theorem executable_of_mem_rowExamples {i : Instr} (h : i ∈ rowExamples) : i.executable = true := by
  revert i
  decide

theorem row_mem_executableRows {i : Instr} (h : i.executable = true) : (i.rowMask, i.rowMatch) ∈ executableRows := by
  cases i with
  | blt => cases h
  | add | sub | slt | srl | or | and | lw | addi | jalr | sw | beq | bne | jal =>
    simp [executableRows, Instr.rowMask, Instr.rowMatch]

/-- A word is on the table exactly when it fits the row of an executable instruction. -/
theorem onTable_iff_fitsRow {w : Word} : OnTable w ↔ ∃ i : Instr, i.executable = true ∧ FitsRow w i := by
  constructor
  · rintro ⟨row, hmem, hfit⟩
    rw [executableRows_eq_map] at hmem
    obtain ⟨i, hi, rfl⟩ := List.mem_map.mp hmem
    exact ⟨i, executable_of_mem_rowExamples hi, hfit⟩
  · rintro ⟨i, hx, hfit⟩
    exact ⟨_, row_mem_executableRows hx, hfit⟩

/-! ## Unsupported -/

/-- R72's decoder answers an instruction exactly when the model's does and the instruction is executable. -/
theorem decodeExecutable_eq_instr_iff {m : JImmDecode} {w : Word} {i : Instr} :
    decodeExecutable m w = .instr i ↔ decode m w = .instr i ∧ i.executable = true := by
  constructor
  · intro h
    have hd := decode_of_decodeExecutable h
    rw [decodeExecutable_of_instr hd] at h
    refine ⟨hd, ?_⟩
    by_contra hx
    rw [if_neg hx] at h
    cases h
  · rintro ⟨hd, hx⟩
    rw [decodeExecutable_of_instr hd, if_pos hx]

theorem unsupported_iff_not_onTable (m : JImmDecode) (w : Word) : decodeExecutable m w = .unsupported ↔ ¬ OnTable w := by
  rw [onTable_iff_fitsRow]
  constructor
  · rintro h ⟨i, hx, hfit⟩
    have hi : decodeExecutable m w = .instr (withOperandsOf m w i) :=
      decodeExecutable_eq_instr_iff.mpr ⟨decode_of_fitsRow m hfit, (executable_withOperandsOf m w i).trans hx⟩
    rw [h] at hi
    cases hi
  · intro h
    cases hd : decodeExecutable m w with
    | unsupported => rfl
    | instr i =>
      obtain ⟨hdec, hx⟩ := decodeExecutable_eq_instr_iff.mp hd
      exact absurd ⟨i, hx, fitsRow_of_decode hdec⟩ h

/-- Every row's mask keeps the last two bits, and every row's match has them set. -/
theorem low_bits_of_fitsRow {w : Word} {i : Instr} (h : FitsRow w i) : field w 1 0 = 0b11 := by
  have hmask : i.rowMask &&& 3#32 = 3#32 := by cases i <;> simp [Instr.rowMask]
  have hmatch : i.rowMatch &&& 3#32 = 3#32 := by cases i <;> simp [Instr.rowMatch]
  have hw : w &&& 3#32 = 3#32 := by
    calc w &&& 3#32 = w &&& (i.rowMask &&& 3#32) := by rw [hmask]
      _ = i.rowMatch &&& 3#32 := by rw [← BitVec.and_assoc, h]
      _ = 3#32 := hmatch
  calc field w 1 0 = w.toNat &&& 2 ^ 2 - 1 := by rw [field, Nat.pow_zero, Nat.div_one, Nat.and_two_pow_sub_one_eq_mod]
    _ = 3 := congrArg BitVec.toNat hw

theorem unsupported_of_low_bits (m : JImmDecode) {w : Word} (h : field w 1 0 ≠ 0b11) :
    decodeExecutable m w = .unsupported := by
  rw [unsupported_iff_not_onTable, onTable_iff_fitsRow]
  rintro ⟨i, -, hfit⟩
  exact h (low_bits_of_fitsRow hfit)

/-- Settles O23: the decoder answers an instruction exactly on the rows, so it is Unsupported exactly off them. -/
theorem unsupportedExactlyOffTheTable : Obligations.UnsupportedExactlyOffTheTable := by
  unfold Obligations.UnsupportedExactlyOffTheTable
  refine ⟨unsupported_iff_not_onTable, fun m => ⟨unsupported_of_low_bits m (by decide), by cases m <;> decide⟩,
    fun m w => unsupported_of_low_bits m, fun s w hr hf hoff => ?_⟩
  exact step_of_unsupported hr hf ((unsupported_iff_not_onTable _ w).mpr hoff)

/-! ## The literal JAL -/

theorem opcodeOf_eq_of_field {w : Word} {op : BitVec 7} (h : field w 6 0 = op.toNat) : opcodeOf w = op := by
  apply BitVec.eq_of_toNat_eq
  rw [opcodeOf_toNat, ← h, field, Nat.pow_zero, Nat.div_one]

/-- A fetched JAL is completed at its target, still RUNNING (R100). -/
theorem step_of_jal {s : State} {w : Word} (hr : s.run = .running) (hf : Fetches s w) (ho : opcodeOf w = opJal) :
    ∃ t, step s = .next t ∧ t.run = .running ∧ t.pc = s.pc + immJ s.config.jImmDecode w := by
  refine ⟨_, step_of_fetches hr hf (decode_opJal ho), ?_, ?_⟩
  · simpa [effect, Effect.apply] using hr
  · simp [effect, Effect.apply, pcRelative]

/-- Settles O47: the literal immediate has `inst[31]` as its last bit, so an aligned pc jumps to an odd one. -/
theorem literalOddJumpFaultsAtTheNextFetch : Obligations.LiteralOddJumpFaultsAtTheNextFetch := by
  unfold Obligations.LiteralOddJumpFaultsAtTheNextFetch
  intro s w hr hf hm ho htop
  obtain ⟨t, hstep, htr, hpc⟩ := step_of_jal hr hf (opcodeOf_eq_of_field ho)
  have hpcNat : t.pc.toNat = (s.pc.toNat + patternJLiteral w) % 2 ^ 32 := by
    rw [hpc, hm, BitVec.toNat_add, immJ_literal_toNat_eq_patternJLiteral]
  have halign := hf.1
  have hodd := patternJLiteral_mod_two w
  exact ⟨t, hstep, hpcNat, by omega, step_of_misaligned htr (by omega)⟩

/-! ## Sample words -/

/-- Settles O24: the decoder, evaluated on the six words. -/
theorem sampleWordsDecode : Obligations.SampleWordsDecode := by
  unfold Obligations.SampleWordsDecode
  decide

end Sys2Proof.Proofs
end

section
/-! The R-type instructions (R82 to R89): the ALU's six formulas, and one law for the row and one for the execution of all
six. -/

namespace Sys2Proof.Proofs

open Sys2Proof.Machine Sys2Proof.Claims

/-! ## The ALU's formulas (R82) -/

section
variable (a b : Word)

theorem alu_add_toNat : (alu .add a b).toNat = (a.toNat + b.toNat) % 2 ^ 32 := BitVec.toNat_add a b

theorem alu_sub_toNat : ((alu .sub a b).toNat : Int) = ((a.toNat : Int) - b.toNat) % 2 ^ 32 := by
  rw [alu, BitVec.toNat_sub]
  omega

theorem alu_slt_toNat : (alu .slt a b).toNat = if signedOf 32 a.toNat < signedOf 32 b.toNat then 1 else 0 := by
  rw [signedOf_toNat, signedOf_toNat, alu, apply_ite BitVec.toNat]
  rfl

theorem alu_srl_toNat : (alu .srl a b).toNat = a.toNat / 2 ^ (b.toNat % 16) := by
  rw [alu, BitVec.toNat_ushiftRight, Nat.shiftRight_eq_div_pow, shiftAmount]

theorem alu_or_toNat : (alu .or a b).toNat = a.toNat ||| b.toNat := BitVec.toNat_or a b

theorem alu_and_toNat : (alu .and a b).toNat = a.toNat &&& b.toNat := BitVec.toNat_and a b

end

/-- Settles O7: the six formulas, OR and AND by the library's laws of a bit. -/
theorem aluFollowsItsSixFormulas : Obligations.AluFollowsItsSixFormulas := by
  unfold Obligations.AluFollowsItsSixFormulas
  exact fun a b => ⟨alu_add_toNat a b, alu_sub_toNat a b, alu_slt_toNat a b, alu_srl_toNat a b,
    fun _ => BitVec.getLsbD_or, fun _ => BitVec.getLsbD_and⟩

/-! ## What a register write with the sequential next pc is, in the words of the statements -/

theorem Effect.write_keepsRun (s : State) (rd : RegId) (v pc : Word) : KeepsRun s ((Effect.write rd v pc).apply s) :=
  ⟨by rw [Effect.apply, State.setPc_run, State.setReg_run], Effect.apply_trace s _, Effect.apply_config s _⟩

theorem pcAdvances_of_pc_eq {s t : State} (h : t.pc = s.pcNext) : PcAdvances s t := by
  have hnext := pcNext_toNat s
  rw [PcAdvances, h]
  omega

theorem eq_ofInt_of_toNat_eq {v : Word} {x : Int} (h : (v.toNat : Int) = x) : v = BitVec.ofInt 32 x := by
  rw [← h, BitVec.ofInt_natCast, BitVec.ofNat_toNat, BitVec.setWidth_eq]

/-! ## The six instructions at once -/

/-- The R-type instruction of an ALU operation (R84 to R89). -/
def rTypeInstr : AluOp → RegId → RegId → RegId → Instr
  | .add => .add
  | .sub => .sub
  | .slt => .slt
  | .srl => .srl
  | .or => .or
  | .and => .and

/-- `exec_R` (R83): the ALU's result goes to rd, the pc to the next word. -/
theorem exec_rTypeInstr (op : AluOp) (rd rs1 rs2 : RegId) (s : State) :
    exec (rTypeInstr op rd rs1 rs2) s = .next ((Effect.write rd (alu op (s.reg rs1) (s.reg rs2)) s.pcNext).apply s) := by
  cases op <;> exact exec_eq_effect _ s

theorem rowMask_rTypeInstr (op : AluOp) (rd rs1 rs2 : RegId) : (rTypeInstr op rd rs1 rs2).rowMask = 0xFE00707F#32 := by
  cases op <;> rfl

theorem executable_rTypeInstr (op : AluOp) (rd rs1 rs2 : RegId) : (rTypeInstr op rd rs1 rs2).executable = true := by
  cases op <;> rfl

theorem withOperandsOf_rTypeInstr (m : JImmDecode) (w : Word) (op : AluOp) (rd rs1 rs2 : RegId) :
    withOperandsOf m w (rTypeInstr op rd rs1 rs2) = rTypeInstr op (rdOf w) (rs1Of w) (rs2Of w) := by
  cases op <;> rfl

/-- R72's decoder reads a word that fits an executable row as that row's instruction, with the word's operands. -/
theorem decodeExecutable_of_fitsRow (m : JImmDecode) {w : Word} {i : Instr} (hx : i.executable = true) (h : FitsRow w i) :
    decodeExecutable m w = .instr (withOperandsOf m w i) :=
  decodeExecutable_eq_instr_iff.mpr ⟨decode_of_fitsRow m h, (executable_withOperandsOf m w i).trans hx⟩

/-- A row's match does not depend on the operands, so the instruction with x0 three times stands for its row. -/
theorem rowR_rTypeInstr (op : AluOp) : RowR (rTypeInstr op 0 0 0).rowMatch (rTypeInstr op) := by
  intro m w h
  have hfit : FitsRow w (rTypeInstr op 0 0 0) := by rw [FitsRow, rowMask_rTypeInstr, h]
  have hdecode := decodeExecutable_of_fitsRow m (executable_rTypeInstr op 0 0 0) hfit
  rw [withOperandsOf_rTypeInstr] at hdecode
  exact ⟨rdOf w, rs1Of w, rs2Of w, hdecode, rdOf_val w, rs1Of_val w, rs2Of_val w⟩

/-- An R-type instruction completes with any integer formula that its ALU operation meets. -/
theorem executesR_rTypeInstr {op : AluOp} {f : Word → Word → Int} (hf : ∀ a b, ((alu op a b).toNat : Int) = f a b) :
    ExecutesR (rTypeInstr op) f := by
  intro rd rs1 rs2 s
  refine ⟨_, exec_rTypeInstr op rd rs1 rs2 s, ?_, pcAdvances_of_pc_eq rfl, keepsMemory_of_mem_eq (Effect.write_mem s rd _ _),
    Effect.write_keepsRun s rd _ _⟩
  rw [← eq_ofInt_of_toNat_eq (hf _ _)]
  exact Effect.write_writesOnly s rd _ _

/-- Settles O1: the row and the execution of the ALU's ADD. -/
theorem addWritesWrappedSum : Obligations.AddWritesWrappedSum :=
  ⟨rowR_rTypeInstr .add, executesR_rTypeInstr (op := .add) fun a b => by rw [alu_add_toNat]; norm_cast⟩

/-- Settles O2: the row and the execution of the ALU's SUB. -/
theorem subWritesWrappedDifference : Obligations.SubWritesWrappedDifference :=
  ⟨rowR_rTypeInstr .sub, executesR_rTypeInstr (op := .sub) alu_sub_toNat⟩

/-- Settles O3: the row and the execution of the ALU's SLT. -/
theorem sltWritesSignedComparison : Obligations.SltWritesSignedComparison :=
  ⟨rowR_rTypeInstr .slt, executesR_rTypeInstr (op := .slt) fun a b => by rw [alu_slt_toNat]; norm_cast⟩

/-- Settles O4: the row and the execution of the ALU's SRL. -/
theorem srlShiftsByLowFourBits : Obligations.SrlShiftsByLowFourBits :=
  ⟨rowR_rTypeInstr .srl, executesR_rTypeInstr (op := .srl) fun a b => congrArg Nat.cast (alu_srl_toNat a b)⟩

/-- Settles O5: the row and the execution of the ALU's OR. -/
theorem orWritesBitwiseOr : Obligations.OrWritesBitwiseOr :=
  ⟨rowR_rTypeInstr .or, executesR_rTypeInstr (op := .or) fun a b => congrArg Nat.cast (alu_or_toNat a b)⟩

/-- Settles O6: the row and the execution of the ALU's AND. -/
theorem andWritesBitwiseAnd : Obligations.AndWritesBitwiseAnd :=
  ⟨rowR_rTypeInstr .and, executesR_rTypeInstr (op := .and) fun a b => congrArg Nat.cast (alu_and_toNat a b)⟩

end Sys2Proof.Proofs
end

section
/-! The I-type instructions (R91 to R93): one law for the three rows, and what an instruction does whose effect is a register
write or no more than the sequential next pc. -/

namespace Sys2Proof.Proofs

open Sys2Proof.Machine Sys2Proof.Claims

/-! ## The three rows at once -/

/-- A row's match does not depend on the operands, so one instruction `i` under the I-type mask stands for its row. -/
theorem rowI_rowMatch {i : Instr} {make : RegId → RegId → Word → Instr} (hmask : i.rowMask = 0x0000707F#32)
    (hx : i.executable = true) (hops : ∀ m w, withOperandsOf m w i = make (rdOf w) (rs1Of w) (immI w)) :
    RowI i.rowMatch make := by
  intro m w h
  have hfit : FitsRow w i := by rw [FitsRow, hmask, h]
  have hdecode := decodeExecutable_of_fitsRow m hx hfit
  rw [hops] at hdecode
  exact ⟨rdOf w, rs1Of w, immI w, hdecode, rdOf_val w, rs1Of_val w, immI_toInt_eq_signedOf w⟩

/-! ## What an instruction with a given effect does, in the words of the statements -/

/-- An instruction whose effect is a register write changes that register and the pc, and nothing else (R25). -/
theorem exec_of_effect_write {s : State} {i : Instr} {rd : RegId} {v pc : Word} (h : effect s i = .write rd v pc) :
    ∃ t, exec i s = .next t ∧ WritesOnly s t rd v ∧ t.pc = pc ∧ KeepsMemory s t ∧ KeepsRun s t := by
  refine ⟨_, exec_eq_effect i s, ?_⟩
  rw [h]
  exact ⟨Effect.write_writesOnly s rd v pc, rfl, keepsMemory_of_mem_eq (Effect.write_mem s rd v pc),
    Effect.write_keepsRun s rd v pc⟩

/-- The same where the pc goes on to the next word (R28). -/
theorem exec_of_effect_write_pcNext {s : State} {i : Instr} {rd : RegId} {v : Word}
    (h : effect s i = .write rd v s.pcNext) :
    ∃ t, exec i s = .next t ∧ WritesOnly s t rd v ∧ PcAdvances s t ∧ KeepsMemory s t ∧ KeepsRun s t := by
  obtain ⟨t, hexec, hregs, hpc, hframe⟩ := exec_of_effect_write h
  exact ⟨t, hexec, hregs, pcAdvances_of_pc_eq hpc, hframe⟩

/-- An instruction that only goes on to the next word changes nothing but the pc (R28). -/
theorem exec_of_effect_goto_pcNext {s : State} {i : Instr} (h : effect s i = .goto s.pcNext) :
    ∃ t, exec i s = .next t ∧ KeepsRegisters s t ∧ PcAdvances s t ∧ KeepsMemory s t ∧ KeepsRun s t := by
  refine ⟨_, exec_eq_effect i s, ?_⟩
  rw [h]
  exact ⟨fun _ => rfl, pcAdvances_of_pc_eq rfl, keepsMemory_of_mem_eq rfl, rfl, rfl, rfl⟩

/-! ## ADDI and JALR -/

/-- Settles O9: ADDI's effect writes the ALU's sum and goes on to the next word. -/
theorem addiAddsSignedImmediate : Obligations.AddiAddsSignedImmediate := by
  unfold Obligations.AddiAddsSignedImmediate
  refine ⟨rowI_rowMatch (i := .addi 0 0 0#32) rfl rfl fun _ _ => rfl, fun rd rs1 imm s => ?_⟩
  rw [← eq_ofInt_of_toNat_eq (add_toNat_eq (s.reg rs1) imm)]
  exact exec_of_effect_write_pcNext rfl

/-- The link value as the statements write it (R93). -/
theorem pcNext_eq_ofNat (s : State) : s.pcNext = BitVec.ofNat 32 ((s.pc.toNat + 4) % 2 ^ 32) := by
  rw [eq_ofInt_of_toNat_eq (pcNext_toNat s), ← BitVec.ofInt_natCast]
  norm_cast

/-- Settles O10: JALR's effect writes the link and goes to the sum of the old rs1 and the immediate. -/
theorem jalrLinksAndJumpsToRegisterSum : Obligations.JalrLinksAndJumpsToRegisterSum := by
  unfold Obligations.JalrLinksAndJumpsToRegisterSum
  refine ⟨rowI_rowMatch (i := .jalr 0 0 0#32) rfl rfl fun _ _ => rfl, fun rd rs1 imm s => ?_⟩
  obtain ⟨t, hexec, hregs, hpc, hframe⟩ := exec_of_effect_write (i := .jalr rd rs1 imm) (s := s) rfl
  have htarget : (t.pc.toNat : Int) = ((s.reg rs1).toNat + imm.toInt) % 2 ^ 32 := by
    rw [hpc]
    exact add_toNat_eq (s.reg rs1) imm
  rw [← pcNext_eq_ofNat]
  exact ⟨t, hexec, hregs, htarget, hframe⟩

/-! ## LW -/

section
variable {s : State} {ea : Word} (rd : RegId) (hm : s.mem.read ea = none)
include hm

theorem loadEffect_of_keep (hc : s.config.lwUnmapped = .keep) : loadEffect s rd ea = .goto s.pcNext := by
  rw [loadEffect, hm, hc]

theorem loadEffect_of_zero (hc : s.config.lwUnmapped = .zero) : loadEffect s rd ea = .write rd 0#32 s.pcNext := by
  rw [loadEffect, hm, hc]

theorem loadEffect_of_fault (hc : s.config.lwUnmapped = .fault) : loadEffect s rd ea = .raise (.unmappedLoad ea) := by
  rw [loadEffect, hm, hc]

end

/-- Settles O8: the load's effect in the mapped case and under each value of `LW_UNMAPPED`. -/
theorem lwLoadsOrFollowsUnmappedParameter : Obligations.LwLoadsOrFollowsUnmappedParameter := by
  unfold Obligations.LwLoadsOrFollowsUnmappedParameter
  refine ⟨rowI_rowMatch (i := .lw 0 0 0#32) rfl rfl fun _ _ => rfl, fun rd rs1 imm s =>
    ⟨add_toNat_eq (s.reg rs1) imm, fun v hv => ?_, fun hm hc => ?_, fun hm hc => ?_, fun hm hc => ?_⟩⟩
  · exact exec_of_effect_write_pcNext (loadEffect_of_read hv)
  · exact exec_of_effect_goto_pcNext (loadEffect_of_keep rd hm hc)
  · exact exec_of_effect_write_pcNext (loadEffect_of_zero rd hm hc)
  · rw [exec_eq_effect, effect, loadEffect_of_fault rd hm hc]
    rfl

end Sys2Proof.Proofs
end

section
/-! The S-type instruction (R94): the row of SW, and which map a store changes. -/

namespace Sys2Proof.Proofs

open Sys2Proof.Machine Sys2Proof.Claims

/-! ## The map a store lands in (R48) -/

/-- At the k-th key a store changes `res[k]` and leaves the scratch map. -/
theorem Memory.write_at_key (m : Memory) {ea : Word} (v : Word) {k : Fin 32} (h : ea.toNat = 65536 + 4 * k.val) :
    (m.write ea v).res.get k = v ∧ (m.write ea v).scratch = m.scratch := by
  rw [Memory.write_resident (translateAddress_eq_resident_iff.mpr h)]
  exact ⟨(vector_get_set m.res k k v).trans (if_pos rfl), rfl⟩

/-- Off the 32 keys a store leaves the resident words. -/
theorem Memory.write_res_off_keys (m : Memory) {ea : Word} (v : Word) (h : ∀ k : Fin 32, ea.toNat ≠ 65536 + 4 * k.val) :
    (m.write ea v).res = m.res := by
  rw [Memory.write_scratch (translateAddress_of_not_resident (not_isResident h))]

/-! ## SW -/

/-- The operands of a word of the SW row (R63, R67, R70). -/
theorem decodeExecutable_swRow (m : JImmDecode) {w : Word} (h : w &&& 0x0000707F#32 = 0x00002023#32) :
    decodeExecutable m w = .instr (.sw (rs1Of w) (rs2Of w) (immS w)) :=
  decodeExecutable_of_fitsRow m (i := .sw 0 0 0#32) rfl h

/-- Settles O11: SW's effect is one store to the data space, and the store picks its map by the address. -/
theorem swStoresOneWord : Obligations.SwStoresOneWord := by
  unfold Obligations.SwStoresOneWord
  refine ⟨fun m w h => ⟨rs1Of w, rs2Of w, immS w, decodeExecutable_swRow m h, rs1Of_val w, rs2Of_val w,
    immS_toInt_eq_signedOf w⟩, fun rs1 rs2 imm s => ⟨add_toNat_eq (s.reg rs1) imm, _, exec_eq_effect _ s, ?_⟩⟩
  have hmem : ((effect s (.sw rs1 rs2 imm)).apply s).mem = s.mem.write (effectiveAddress s rs1 imm) (s.reg rs2) := rfl
  rw [hmem]
  exact ⟨Memory.read_write_same _ _ _, fun _ => Memory.read_write_other, fun _ => Memory.write_at_key _ _,
    Memory.write_res_off_keys _ _, fun _ => rfl, pcAdvances_of_pc_eq rfl, rfl, rfl, rfl⟩

end Sys2Proof.Proofs
end

section
/-! The B-type instructions (R95 to R99): when the comparator gives each answer, one law for the rows of BEQ and BNE, what a
branch changes, and BLT's fault. -/

namespace Sys2Proof.Proofs

open Sys2Proof.Machine Sys2Proof.Claims

/-! ## The comparator (R95) -/

section
variable (a b imm : Word)

theorem branchCompare_beq_iff :
    (branchCompare .beq a b imm = .halt ↔ a = b ∧ imm = 0#32) ∧
    (branchCompare .beq a b imm = .taken ↔ a = b ∧ imm ≠ 0#32) ∧
    (branchCompare .beq a b imm = .notTaken ↔ a ≠ b) := by
  obtain ⟨he, hi, hc⟩ | ⟨he, hi, hc⟩ | ⟨hne, hc⟩ := branchCompare_beq a b imm
  · rw [hc]
    simp [he, hi]
  · rw [hc]
    simp [he, hi]
  · rw [hc]
    simp [hne]

theorem branchCompare_bne_iff :
    (branchCompare .bne a b imm = .taken ↔ a ≠ b) ∧ (branchCompare .bne a b imm = .notTaken ↔ a = b) := by
  obtain ⟨hne, hc⟩ | ⟨he, hc⟩ := branchCompare_bne a b imm
  · rw [hc]
    simp [hne]
  · rw [hc]
    simp [he]

end

/-- Settles O16: the comparator's cases exclude each other. -/
theorem comparatorHaltsOnlyOnEqualZeroBeq : Obligations.ComparatorHaltsOnlyOnEqualZeroBeq := by
  unfold Obligations.ComparatorHaltsOnlyOnEqualZeroBeq
  intro a b imm
  obtain ⟨hhalt, htaken, hnotTaken⟩ := branchCompare_beq_iff a b imm
  exact ⟨hhalt, htaken, hnotTaken, branchCompare_bne_iff a b imm⟩

/-! ## The rows of BEQ and BNE -/

/-- A row's match does not depend on the operands, so one instruction `i` under the B-type mask stands for its row. -/
theorem rowB_rowMatch {i : Instr} {make : RegId → RegId → Word → Instr} (hmask : i.rowMask = 0x0000707F#32)
    (hx : i.executable = true) (hops : ∀ m w, withOperandsOf m w i = make (rs1Of w) (rs2Of w) (immB w)) :
    RowB i.rowMatch make := by
  intro m w h
  have hfit : FitsRow w i := by rw [FitsRow, hmask, h]
  have hdecode := decodeExecutable_of_fitsRow m hx hfit
  rw [hops] at hdecode
  exact ⟨rs1Of w, rs2Of w, immB w, hdecode, rs1Of_val w, rs2Of_val w, immB_toInt_eq_signedOf w⟩

/-! ## Branches -/

/-- Whatever the comparison is, a branch moves only the pc and the run state (R96 to R98). -/
theorem branchEffect_frame (s : State) (imm : Word) (c : Comparison) :
    KeepsRegisters s ((branchEffect s imm c).apply s) ∧ KeepsMemory s ((branchEffect s imm c).apply s) ∧
    ((branchEffect s imm c).apply s).trace = s.trace ∧ ((branchEffect s imm c).apply s).config = s.config := by
  cases c <;> exact ⟨fun _ => rfl, keepsMemory_of_mem_eq rfl, rfl, rfl⟩

/-- The effect of going to another pc leaves the run state. -/
theorem Effect.goto_run (s : State) (pc : Word) : ((Effect.goto pc).apply s).run = s.run := rfl

theorem jumpsBy_goto_pcRelative (s : State) (imm : Word) : JumpsBy s ((Effect.goto (pcRelative s imm)).apply s) imm :=
  add_toNat_eq s.pc imm

theorem pcAdvances_goto_pcNext (s : State) : PcAdvances s ((Effect.goto s.pcNext).apply s) := pcAdvances_of_pc_eq rfl

section
variable {s : State} {rs1 rs2 : RegId} {imm : Word}

theorem effect_beq_of_eq_zero (he : s.reg rs1 = s.reg rs2) (hi : imm = 0#32) : effect s (.beq rs1 rs2 imm) = .halt := by
  obtain ⟨hhalt, -, -⟩ := branchCompare_beq_iff (s.reg rs1) (s.reg rs2) imm
  exact congrArg (branchEffect s imm) (hhalt.mpr ⟨he, hi⟩)

theorem effect_beq_of_eq_of_ne_zero (he : s.reg rs1 = s.reg rs2) (hi : imm ≠ 0#32) :
    effect s (.beq rs1 rs2 imm) = .goto (pcRelative s imm) := by
  obtain ⟨-, htaken, -⟩ := branchCompare_beq_iff (s.reg rs1) (s.reg rs2) imm
  exact congrArg (branchEffect s imm) (htaken.mpr ⟨he, hi⟩)

theorem effect_beq_of_ne (hne : s.reg rs1 ≠ s.reg rs2) : effect s (.beq rs1 rs2 imm) = .goto s.pcNext := by
  obtain ⟨-, -, hnotTaken⟩ := branchCompare_beq_iff (s.reg rs1) (s.reg rs2) imm
  exact congrArg (branchEffect s imm) (hnotTaken.mpr hne)

theorem effect_bne_of_ne (hne : s.reg rs1 ≠ s.reg rs2) : effect s (.bne rs1 rs2 imm) = .goto (pcRelative s imm) := by
  obtain ⟨htaken, -⟩ := branchCompare_bne_iff (s.reg rs1) (s.reg rs2) imm
  exact congrArg (branchEffect s imm) (htaken.mpr hne)

theorem effect_bne_of_eq (he : s.reg rs1 = s.reg rs2) : effect s (.bne rs1 rs2 imm) = .goto s.pcNext := by
  obtain ⟨-, hnotTaken⟩ := branchCompare_bne_iff (s.reg rs1) (s.reg rs2) imm
  exact congrArg (branchEffect s imm) (hnotTaken.mpr he)

end

/-- Settles O12: the frame is that of every branch, and each comparison has its own effect. -/
theorem beqBranchesOrHalts : Obligations.BeqBranchesOrHalts := by
  unfold Obligations.BeqBranchesOrHalts
  refine ⟨rowB_rowMatch (i := .beq 0 0 0#32) rfl rfl fun _ _ => rfl, fun rs1 rs2 imm s => ?_⟩
  obtain ⟨hregs, hmem, htrace, hconfig⟩ := branchEffect_frame s imm (branchCompare .beq (s.reg rs1) (s.reg rs2) imm)
  refine ⟨_, exec_eq_effect _ s, hregs, hmem, htrace, hconfig, fun he hi => ?_, fun he hi => ?_, fun hne => ?_⟩
  · rw [effect_beq_of_eq_zero he (BitVec.eq_of_toInt_eq hi)]
    exact ⟨pcAdvances_of_pc_eq rfl, rfl⟩
  · rw [effect_beq_of_eq_of_ne_zero he (fun h => hi (congrArg BitVec.toInt h))]
    exact ⟨jumpsBy_goto_pcRelative s imm, Effect.goto_run s _⟩
  · rw [effect_beq_of_ne hne]
    exact ⟨pcAdvances_goto_pcNext s, Effect.goto_run s _⟩

/-- BNE leaves the run state: neither of its comparisons raises the halt flag (R98). -/
theorem effect_bne_run (s : State) (rs1 rs2 : RegId) (imm : Word) :
    ((effect s (.bne rs1 rs2 imm)).apply s).run = s.run := by
  obtain ⟨-, he⟩ | ⟨-, he⟩ := effect_bne_cases s rs1 rs2 imm <;> rw [he, Effect.goto_run]

/-- Settles O13: the frame is that of every branch, and each of the two comparisons has its own effect. -/
theorem bneBranchesWhenDifferent : Obligations.BneBranchesWhenDifferent := by
  unfold Obligations.BneBranchesWhenDifferent
  refine ⟨rowB_rowMatch (i := .bne 0 0 0#32) rfl rfl fun _ _ => rfl, fun rs1 rs2 imm s => ?_⟩
  obtain ⟨hregs, hmem, htrace, hconfig⟩ := branchEffect_frame s imm (branchCompare .bne (s.reg rs1) (s.reg rs2) imm)
  refine ⟨_, exec_eq_effect _ s, hregs, hmem, ⟨effect_bne_run s rs1 rs2 imm, htrace, hconfig⟩, fun hne => ?_, fun he => ?_⟩
  · rw [effect_bne_of_ne hne]
    exact jumpsBy_goto_pcRelative s imm
  · rw [effect_bne_of_eq he]
    exact pcAdvances_goto_pcNext s

/-! ## BLT and the other B-type words without a meaning (R99) -/

theorem field_14_12_eq_funct3Of (w : Word) : field w 14 12 = (funct3Of w).toNat := (funct3Of_toNat w).symm

theorem funct3Of_ne_of_field {w : Word} {f3 : BitVec 3} (h : field w 14 12 ≠ f3.toNat) : funct3Of w ≠ f3 :=
  fun heq => h ((field_14_12_eq_funct3Of w).trans (congrArg BitVec.toNat heq))

/-- The operands of a word of the BLT row (R64, R68, R70). -/
theorem decode_bltRow (m : JImmDecode) {w : Word} (h : w &&& 0x0000707F#32 = 0x00004063#32) :
    decode m w = .instr (.blt (rs1Of w) (rs2Of w) (immB w)) :=
  decode_of_fitsRow m (i := .blt 0 0 0#32) h

/-- R72's decoder refuses what the model's reads as BLT (R99). -/
theorem decodeExecutable_of_decode_blt {m : JImmDecode} {w : Word} {rs1 rs2 : RegId} {imm : Word}
    (h : decode m w = .instr (.blt rs1 rs2 imm)) : decodeExecutable m w = .unsupported := decodeExecutable_of_instr h

/-- A B-type word whose funct3 is neither BEQ's nor BNE's is BLT or has no row, and is Unsupported either way. -/
theorem decodeExecutable_of_branch {m : JImmDecode} {w : Word} (ho : opcodeOf w = opBranch)
    (hbeq : funct3Of w ≠ 0b000#3) (hbne : funct3Of w ≠ 0b001#3) : decodeExecutable m w = .unsupported := by
  have hd : decode m w =
      if funct3Of w = 0b100#3 then .instr (.blt (rs1Of w) (rs2Of w) (immB w)) else .unsupported := by
    rw [decode_opBranch ho, decodeB, if_neg hbeq, if_neg hbne]
  by_cases hblt : funct3Of w = 0b100#3
  · exact decodeExecutable_of_decode_blt (hd.trans (if_pos hblt))
  · exact decodeExecutable_of_unsupported (hd.trans (if_neg hblt))

/-- Settles O14: R72's decoder has no instruction for these words, and a step faults with a word that it refuses. -/
theorem bltIsFatal : Obligations.BltIsFatal := by
  unfold Obligations.BltIsFatal
  have hunsupported : ∀ m w, field w 6 0 = 0b1100011 → field w 14 12 ≠ 0b000 → field w 14 12 ≠ 0b001 →
      decodeExecutable m w = .unsupported := fun _ _ ho hbeq hbne =>
    decodeExecutable_of_branch (opcodeOf_eq_of_field ho) (funct3Of_ne_of_field hbeq) (funct3Of_ne_of_field hbne)
  exact ⟨fun m w h => decodeExecutable_of_decode_blt (decode_bltRow m h), hunsupported,
    fun s w hr hf ho hbeq hbne => step_of_unsupported hr hf (hunsupported _ w ho hbeq hbne)⟩

/-- BLT faults with its own word (R99). -/
theorem exec_blt (rs1 rs2 : RegId) (imm : Word) (s : State) : exec (.blt rs1 rs2 imm) s =
    .next (faultedAt s (.unsupportedInstruction (encode .standard (.blt rs1 rs2 imm)))) := exec_eq_effect _ s

/-- Settles O15: BLT's own word is the word it was decoded from, and fits BLT's row whatever the operands are. -/
theorem bltRowFaultsWithItsOwnWord : Obligations.BltRowFaultsWithItsOwnWord := by
  unfold Obligations.BltRowFaultsWithItsOwnWord
  refine ⟨fun m w h => ?_, fun rs1 rs2 imm s =>
    ⟨_, fitsRow_encode .standard (.blt rs1 rs2 imm), exec_blt rs1 rs2 imm s⟩⟩
  have hdecode := decode_bltRow m h
  refine ⟨rs1Of w, rs2Of w, immB w, hdecode, rs1Of_val w, rs2Of_val w, immB_toInt_eq_signedOf w, fun s => ?_⟩
  rw [exec_blt, encode_blt_of_decode hdecode]

/-! ## The halting step (R96) -/

/-- A fetched BEQ with equal values and immediate 0 goes to the next word, halts the run and is recorded. -/
theorem step_of_halting_beq {s : State} {w : Word} {rs1 rs2 : RegId} (hr : s.run = .running) (hf : Fetches s w)
    (hd : decode s.config.jImmDecode w = .instr (.beq rs1 rs2 0#32)) (he : s.reg rs1 = s.reg rs2) :
    step s = .next (recorded { s with pc := s.pc + 4#32, run := .halted }) := by
  rw [step_of_fetches hr hf hd, effect_beq_of_eq_zero he rfl]
  rfl

/-- A step that ends in HALTED has run such a BEQ: a fault does not halt, and of the effects only BEQ's does. -/
theorem exists_beq_of_step_halted {s t : State} (h : step s = .next t) (hhalt : t.run = .halted) :
    ∃ w rs1 rs2, Fetches s w ∧ decode s.config.jImmDecode w = .instr (.beq rs1 rs2 0#32) ∧ s.reg rs1 = s.reg rs2 := by
  obtain ⟨hr, ⟨f, rfl⟩ | ⟨w, i, hf, hd, -, rfl⟩⟩ := step_raise_or_record h
  · cases hhalt
  · obtain ⟨rs1, rs2, rfl, he⟩ := (effect_eq_halt_iff s i).mp (((effect s i).apply_run_eq_halted_iff hr).mp hhalt)
    exact ⟨w, rs1, rs2, hf, hd, he⟩

/-- Settles O44: a halting step is that of a BEQ with equal values and immediate 0, which fixes the state it leaves. -/
theorem haltingStepIsTheEqualZeroBeq : Obligations.HaltingStepIsTheEqualZeroBeq := by
  unfold Obligations.HaltingStepIsTheEqualZeroBeq
  intro s t hstep
  have hr : s.run = .running := (step_cases hstep).1
  refine ⟨⟨exists_beq_of_step_halted hstep, ?_⟩, fun hhalt => ?_⟩
  · rintro ⟨w, rs1, rs2, hf, hd, he⟩
    cases hstep.symm.trans (step_of_halting_beq hr hf hd he)
    rfl
  · obtain ⟨w, rs1, rs2, hf, hd, he⟩ := exists_beq_of_step_halted hstep hhalt
    cases hstep.symm.trans (step_of_halting_beq hr hf hd he)
    exact ⟨rfl, rfl, not_step_of_ne_running nofun⟩

end Sys2Proof.Proofs
end

section
/-! The J-type instruction (R100): the row of JAL under both readings of its immediate, and its link and target. -/

namespace Sys2Proof.Proofs

open Sys2Proof.Machine Sys2Proof.Claims

/-- The operands of a word of the JAL row, in either reading (R65, R69, R70). -/
theorem decodeExecutable_jalRow (m : JImmDecode) {w : Word} (h : w &&& 0x0000007F#32 = 0x0000006F#32) :
    decodeExecutable m w = .instr (.jal (rdOf w) (immJ m w)) :=
  decodeExecutable_of_fitsRow m (i := .jal 0 0#32) rfl h

/-- The pc-relative target is the pc plus the signed immediate, modulo 2^32 (R28). -/
theorem jumpsBy_of_pc_eq {s t : State} {imm : Word} (h : t.pc = pcRelative s imm) : JumpsBy s t imm := by
  rw [JumpsBy, h]
  exact add_toNat_eq s.pc imm

/-- Settles O17: a word of JAL's row carries the immediate of the reading, and JAL's effect writes the link and goes to the
pc-relative target. -/
theorem jalLinksAndJumps : Obligations.JalLinksAndJumps := by
  unfold Obligations.JalLinksAndJumps
  refine ⟨fun w h => ⟨?standard, ?literal⟩, fun rd imm s => ?exec⟩
  case standard =>
    exact ⟨rdOf w, immJ .standard w, decodeExecutable_jalRow .standard h, rdOf_val w, immJ_standard_toInt_eq_signedOf w⟩
  case literal =>
    exact ⟨rdOf w, immJ .literal w, decodeExecutable_jalRow .literal h, rdOf_val w, immJ_literal_toNat_eq_patternJLiteral w⟩
  case exec =>
    obtain ⟨t, hexec, hregs, hpc, hframe⟩ := exec_of_effect_write (i := .jal rd imm) (s := s) rfl
    rw [← pcNext_eq_ofNat]
    exact ⟨t, hexec, hregs, jumpsBy_of_pc_eq hpc, hframe⟩

end Sys2Proof.Proofs
end

section
/-! Faults (R102 to R104): the cause of each, which is enough for it and without which a step does not raise it; what a fault
leaves; and the step of a placed word (R119). -/

namespace Sys2Proof.Proofs

open Sys2Proof.Machine Sys2Proof.Claims

/-! ## What a fault leaves -/

theorem run_ne_faulted {s : State} (h : s.faultFree) (f : RunFault) (p : Word) : s.run ≠ .faulted f p := fun hrun =>
  Bool.eq_false_iff.mp h ((RunState.isFaulted_iff _).mpr ⟨f, p, hrun⟩)

/-- A step that ends in FAULTED has done nothing but take the fault at its own pc (R104). -/
theorem eq_faultedAt_of_step {s t : State} {f : RunFault} {p : Word} (h : step s = .next t) (ht : t.run = .faulted f p) :
    t = faultedAt s f ∧ p = s.pc := by
  obtain ⟨-, ⟨g, rfl⟩ | ⟨w, i, -, -, hff, rfl⟩⟩ := step_raise_or_record h
  · cases ht
    exact ⟨rfl, rfl⟩
  · exact absurd ht (run_ne_faulted hff f p)

/-- Settles O42. -/
theorem faultChangesOnlyTheRunState : Obligations.FaultChangesOnlyTheRunState := by
  unfold Obligations.FaultChangesOnlyTheRunState
  intro s t f p hstep ht
  obtain ⟨rfl, hp⟩ := eq_faultedAt_of_step hstep ht
  exact ⟨rfl, hp, rfl, not_step_of_ne_running nofun⟩

/-! ## The causes -/

/-- The cause of each fault of the closed list, in the state the step starts from (R38, R72, R91, R102). -/
def FaultCause (s : State) : RunFault → Prop
  | .missingHalt => s.pc.toNat = 4 * s.config.nProg
  | .pcOutOfBounds => s.pc.toNat % 4 ≠ 0 ∨ 4 * s.config.nProg < s.pc.toNat
  | .unsupportedInstruction w => Fetches s w ∧ ¬ OnTable w
  | .unmappedLoad ea => ∃ w rd rs1 imm, Fetches s w ∧ decode s.config.jImmDecode w = .instr (.lw rd rs1 imm) ∧
      ea = effectiveAddress s rs1 imm ∧ s.mem.read ea = none ∧ s.config.lwUnmapped = .fault

/-- Of the instructions BLT always raises a fault, LW may, and no other does (R91, R99). -/
theorem effect_eq_raise {s : State} {i : Instr} {f : RunFault} (h : effect s i = .raise f) :
    (∃ rs1 rs2 imm, i = .blt rs1 rs2 imm ∧ f = .unsupportedInstruction (encode .standard (.blt rs1 rs2 imm))) ∨
    ∃ rd rs1 imm, i = .lw rd rs1 imm ∧ f = .unmappedLoad (effectiveAddress s rs1 imm) ∧
      s.mem.read (effectiveAddress s rs1 imm) = none ∧ s.config.lwUnmapped = .fault := by
  cases i with
  | add | sub | slt | srl | or | and | addi | jalr | sw | jal => cases h
  | blt rs1 rs2 imm =>
    cases h
    exact .inl ⟨rs1, rs2, imm, rfl, rfl⟩
  | lw rd rs1 imm =>
    obtain ⟨v, -, he⟩ | ⟨-, -, he⟩ | ⟨-, -, he⟩ | ⟨hm, hc, he⟩ :=
      loadEffect_cases s rd (effectiveAddress s rs1 imm) <;> cases he.symm.trans h
    exact .inr ⟨rd, rs1, imm, rfl, rfl, hm, hc⟩
  | beq rs1 rs2 imm =>
    obtain ⟨-, -, he⟩ | ⟨-, -, he⟩ | ⟨-, he⟩ := effect_beq_cases s rs1 rs2 imm <;> cases he.symm.trans h
  | bne rs1 rs2 imm =>
    obtain ⟨-, he⟩ | ⟨-, he⟩ := effect_bne_cases s rs1 rs2 imm <;> cases he.symm.trans h

/-- An executed instruction that raises a fault has that fault's cause. -/
theorem faultCause_of_effect {s : State} {w : Word} {i : Instr} {f : RunFault} (hf : Fetches s w)
    (hd : decode s.config.jImmDecode w = .instr i) (h : effect s i = .raise f) : FaultCause s f := by
  obtain ⟨rs1, rs2, imm, rfl, rfl⟩ | ⟨rd, rs1, imm, rfl, rfl, hm, hc⟩ := effect_eq_raise h
  · rw [encode_blt_of_decode hd]
    exact ⟨hf, (unsupported_iff_not_onTable _ w).mp (decodeExecutable_of_decode_blt hd)⟩
  · exact ⟨w, rd, rs1, imm, hf, hd, rfl, hm, hc⟩

/-- A step that ends in a fault had its cause: in the fetch, in the decoder or in the instruction, in that order (R103). -/
theorem faultCause_of_step {s t : State} {f : RunFault} {p : Word} (h : step s = .next t) (ht : t.run = .faulted f p) :
    FaultCause s f := by
  obtain ⟨hr, ⟨g, hg, rfl⟩ | ⟨w, hf, hd, rfl⟩ | ⟨w, i, u, hf, hd, hu, rfl⟩⟩ := step_cases h
  · cases ht
    obtain ⟨rfl, hpc⟩ | ⟨rfl, hpc⟩ := fetch_eq_fault hg
    · exact hpc
    · exact hpc
  · cases ht
    exact ⟨fetch_eq_word_iff.mp hf, (unsupported_iff_not_onTable _ w).mp (decodeExecutable_of_unsupported hd)⟩
  · rw [State.complete_run, eq_apply_of_exec hu] at ht
    obtain ⟨g, he⟩ | hff := (effect s i).raise_or_faultFree hr
    · rw [he] at ht
      cases ht
      exact faultCause_of_effect (fetch_eq_word_iff.mp hf) hd he
    · exact absurd ht (run_ne_faulted hff f p)

/-- A RUNNING state with the cause of a fault takes it. -/
theorem step_of_faultCause {s : State} {f : RunFault} (hr : s.run = .running) (h : FaultCause s f) :
    step s = .next (faultedAt s f) := by
  cases f with
  | missingHalt => exact step_of_fetch_fault hr (fetch_at_end h)
  | pcOutOfBounds =>
    obtain hmis | hfar := h
    · exact step_of_misaligned hr hmis
    · exact step_of_fetch_fault hr (fetch_beyond hfar)
  | unsupportedInstruction w => exact step_of_unsupported hr h.1 ((unsupported_iff_not_onTable _ w).mpr h.2)
  | unmappedLoad ea =>
    obtain ⟨w, rd, rs1, imm, hf, hd, rfl, hm, hc⟩ := h
    rw [step_of_fetches hr hf hd, effect, loadEffect_of_fault rd hm hc]
    rfl

/-- A fault comes exactly with its cause, at the pc of the state the step started from (R102). -/
theorem run_eq_faulted_iff {s t : State} (h : step s = .next t) (f : RunFault) (p : Word) :
    t.run = .faulted f p ↔ p = s.pc ∧ FaultCause s f := by
  constructor
  · exact fun ht => ⟨(eq_faultedAt_of_step h ht).2, faultCause_of_step h ht⟩
  · rintro ⟨rfl, hcause⟩
    cases h.symm.trans (step_of_faultCause (step_cases h).1 hcause)
    rfl

/-- Settles O43: `run_eq_faulted_iff` for each fault of the list. -/
theorem faultsHaveExactlyTheirCauses : Obligations.FaultsHaveExactlyTheirCauses := by
  unfold Obligations.FaultsHaveExactlyTheirCauses
  intro s t hstep
  exact ⟨run_eq_faulted_iff hstep .missingHalt, run_eq_faulted_iff hstep .pcOutOfBounds,
    fun w => run_eq_faulted_iff hstep (.unsupportedInstruction w), fun ea => run_eq_faulted_iff hstep (.unmappedLoad ea)⟩

/-! ## The placed word -/

/-- The host's reading of a table word is the decoder's standard one. -/
theorem decode_of_decodeTableWord {n w : Nat} {i : Instr} (h : decodeTableWord n w = some i) :
    decode .standard (BitVec.ofNat 32 (w % 2 ^ n)) = .instr i := by
  unfold decodeTableWord at h
  split at h
  · next j hd => cases h; exact hd
  · cases h

/-- Settles O40: the fetch answers the placed word, and the step completes the execution of what it decodes to. -/
theorem placedWordIsTheNextInstruction : Obligations.PlacedWordIsTheNextInstruction := by
  unfold Obligations.PlacedWordIsTheNextInstruction
  intro s n w i hm h
  obtain ⟨u, hu⟩ := exec_next i (s.withFetchWord n w)
  have hd : decode (s.withFetchWord n w).config.jImmDecode (BitVec.ofNat 32 (w % 2 ^ n)) = .instr i := by
    rw [State.withFetchWord_jImmDecode, hm]
    exact decode_of_decodeTableWord h
  refine ⟨u, hu, ?_⟩
  rw [step_of_fetch_word (State.withFetchWord_run s n w) (fetch_withFetchWord s n w), stepWord_instr hd, hu]
  rfl

end Sys2Proof.Proofs
end

section
/-! What the host receives: the dump (R115), the observation of an ended run (R118) and the values of the trace text (R116). -/

namespace Sys2Proof.Proofs

open Sys2Proof.Machine Sys2Proof.Claims

/-! ## The dump -/

theorem residentPairs_length (m : Memory) : m.residentPairs.length = 32 := by
  rw [Memory.residentPairs, List.length_zipWith, List.length_range, Vector.length_toList, Nat.min_self]

/-- The pair of resident word k (R43). -/
theorem residentPairs_getElem? (m : Memory) (k : Fin 32) :
    m.residentPairs[k.val]? = some (65536 + 4 * k.val, m.res.get k) := by
  have hk : m.res.toList[k.val]? = some (m.res.get k) := by
    rw [Vector.getElem?_toList, Vector.getElem?_eq_getElem k.isLt]
    rfl
  rw [Memory.residentPairs, List.getElem?_zipWith, List.getElem?_range k.isLt, hk]

theorem residentDump_eq_some_iff {s : State} {d : List (Nat × Word)} :
    residentDump s = some d ↔ s.run = .halted ∧ d = s.mem.residentPairs := by
  cases hr : s.run <;> simp [residentDump, hr, eq_comm]

/-- Settles O54. -/
theorem dumpComesExactlyAfterAHalt : Obligations.DumpComesExactlyAfterAHalt := by
  unfold Obligations.DumpComesExactlyAfterAHalt
  intro s
  constructor
  · simp [Option.isSome_iff_exists, residentDump_eq_some_iff]
  · intro d hd
    obtain ⟨-, rfl⟩ := residentDump_eq_some_iff.mp hd
    exact ⟨residentPairs_length s.mem, residentPairs_getElem? s.mem⟩

/-! ## The observation of an ended run -/

/-- A state that is not RUNNING gives an observation. -/
theorem observe_of_ne_running {s : State} (h : s.run ≠ .running) : ∃ o, observe s = some o := by
  cases hr : s.run with
  | running => exact absurd hr h
  | halted => exact ⟨_, observe_of_halted hr⟩
  | faulted f p => exact ⟨_, observe_of_faulted hr⟩

theorem observe_eq_none_iff {s : State} : observe s = none ↔ s.run = .running := by
  refine ⟨fun h => ?_, observe_of_running⟩
  by_contra hr
  obtain ⟨o, ho⟩ := observe_of_ne_running hr
  cases h.symm.trans ho

theorem observe_eq_halted_iff {s : State} {l : List TraceRecord} {d : List (Nat × Word)} :
    observe s = some (.halted l d) ↔ s.run = .halted ∧ l = s.trace ∧ d = s.mem.residentPairs := by
  cases hr : s.run <;> simp [observe, hr, eq_comm]

theorem observe_eq_faulted_iff {s : State} {f : RunFault} {p : Word} {l : List TraceRecord} :
    observe s = some (.faulted f p l) ↔ s.run = .faulted f p ∧ l = s.trace := by
  cases hr : s.run <;> simp [observe, hr, eq_comm, and_assoc]

/-- Settles O55. -/
theorem observationComesExactlyAtTheEnd : Obligations.ObservationComesExactlyAtTheEnd := by
  unfold Obligations.ObservationComesExactlyAtTheEnd
  exact fun s => ⟨observe_eq_none_iff, observe_of_halted, fun f p => observe_of_faulted⟩

/-! ## The trace text -/

/-- One bit of a word as a field (R15). -/
theorem getLsbD_eq_true_iff_field (w : Word) (n : Nat) : w.getLsbD n = true ↔ field w n n = 1 := by
  rw [field, Nat.sub_self, BitVec.getLsbD, Nat.testBit_eq_decide_div_mod_eq, decide_eq_true_eq]
  rfl

theorem binaryChars_length (w : Word) : (binaryChars w).length = 32 := by
  rw [binaryChars, List.length_map, List.length_range]

/-- Character n is bit 31 - n: the most significant bit comes first (R116). -/
theorem binaryChars_getElem? (w : Word) {n : Nat} (h : n < 32) :
    (binaryChars w)[n]? = some (if field w (31 - n) (31 - n) = 1 then '1' else '0') := by
  rw [binaryChars, List.getElem?_map, List.getElem?_range h, Option.map_some]
  simp only [getLsbD_eq_true_iff_field]

theorem ofInt_decimalValue (m : TraceDecimal) (w : Word) : BitVec.ofInt 32 (decimalValue m w) = w := by
  cases m with
  | signed => exact BitVec.ofInt_toInt
  | unsigned => rw [decimalValue, BitVec.ofInt_natCast, BitVec.ofNat_toNat, BitVec.setWidth_eq]

/-- Settles O56. -/
theorem traceTextStandsForThePattern : Obligations.TraceTextStandsForThePattern := by
  unfold Obligations.TraceTextStandsForThePattern
  intro w
  refine ⟨binaryChars_length w, fun n => binaryChars_getElem? w, fun m => ofInt_decimalValue m w, ⟨?_, ?_⟩, ?_, ?_⟩
  · exact Int.natCast_nonneg w.toNat
  · exact Int.ofNat_lt.mpr w.isLt
  · exact BitVec.le_toInt w
  · exact BitVec.toInt_lt

end Sys2Proof.Proofs
end

section
/-! Whole runs (R118): the invariant and the program in every state of a run, the trace after k steps, the one observation of
a run, and the hangs. -/

namespace Sys2Proof.Proofs

open Sys2Proof.Machine Sys2Proof.Claims

/-! ## What every state of a run keeps -/

/-- Settles O52: by the steps that reach the state; a launch meets both, and every step keeps both. -/
theorem reachableStatesKeepTheInvariantAndTheProgram : Obligations.ReachableStatesKeepTheInvariantAndTheProgram := by
  unfold Obligations.ReachableStatesKeepTheInvariantAndTheProgram
  intro c s hc hreach
  induction hreach with
  | launch => exact ⟨inv_launch hc, State.launch_config c⟩
  | step _ hstep ih => exact ⟨everyStepKeepsTheInvariant _ _ ih.1 hstep, (step_config hstep).trans ih.2⟩

/-! ## The trace after k steps -/

section
variable {s t : State} (h : step s = .next t)
include h

/-- A step that does not fault appends the record of the state it leaves (R39, R114). -/
theorem step_trace_of_faultFree (ht : t.faultFree) : t.trace = s.trace ++ [{ pc := t.pc, regs := t.regs }] :=
  (traceGrowsByOneRecordAndIsNeverRead.2 s t h).1 ht

/-- A step that faults appends none (R104). -/
theorem step_trace_of_not_faultFree (ht : ¬ t.faultFree) : t.trace = s.trace :=
  (traceGrowsByOneRecordAndIsNeverRead.2 s t h).2.1 ht

end

theorem faultFree_of_running {s : State} (h : s.run = .running) : s.faultFree := by
  rw [State.faultFree, h, RunState.isFaulted_running]

/-- The record of step n + 1 of a run, whose state it takes the pc and the registers from; past the end of the run, the
launch's. -/
def recordAt (c : Config) (n : Nat) : TraceRecord :=
  match runOf c (n + 1) with
  | .next s => { pc := s.pc, regs := s.regs }
  | .fault _ | .refused _ => { pc := pcReset, regs := resetRegs }

theorem recordAt_of_runOf {c : Config} {n : Nat} {s : State} (h : runOf c (n + 1) = .next s) :
    recordAt c n = { pc := s.pc, regs := s.regs } := by
  rw [recordAt, h]

/-- A run that has not faulted has the record of each of its steps, in order (R114). -/
theorem trace_eq_map_recordAt {c : Config} {k : Nat} {s : State} (h : runOf c k = .next s) (hs : s.faultFree) :
    s.trace = (List.range k).map (recordAt c) := by
  induction k generalizing s with
  | zero => cases h; rfl
  | succ k ih =>
    obtain ⟨t, ht, hstep⟩ := run_snoc_cases (M := core) h
    rw [step_trace_of_faultFree hstep hs, ih ht (faultFree_of_running (step_cases hstep).1), List.range_succ,
      List.map_append, List.map_singleton, recordAt_of_runOf h]

theorem trace_length_of_runOf {c : Config} {k : Nat} {s : State} (h : runOf c k = .next s) (hs : s.faultFree) :
    s.trace.length = k := by
  rw [trace_eq_map_recordAt h hs, List.length_map, List.length_range]

/-- Settles O53: a step that faults keeps the trace of the state before it, which has not faulted. -/
theorem traceCountsTheCompletedSteps : Obligations.TraceCountsTheCompletedSteps := by
  unfold Obligations.TraceCountsTheCompletedSteps
  intro c k s h
  refine ⟨trace_length_of_runOf h, fun hfault => ?_⟩
  cases k with
  | zero => cases h; exact absurd rfl hfault
  | succ k =>
    obtain ⟨t, ht, hstep⟩ := run_snoc_cases (M := core) h
    rw [step_trace_of_not_faultFree hstep hfault, trace_length_of_runOf ht (faultFree_of_running (step_cases hstep).1)]

/-! ## The observation of a run -/

/-- A run ends, or every number of steps leaves it RUNNING (R40). -/
theorem ends_or_runs_forever (c : Config) :
    (∃ k s, runOf c k = .next s ∧ s.run ≠ .running) ∨ ∀ k, ∃ s, runOf c k = .next s ∧ s.run = .running := by
  by_cases hend : ∃ k s, runOf c k = .next s ∧ s.run ≠ .running
  · exact .inl hend
  · refine .inr fun k => (runsGoOnUntilHaltedOrFaulted.2 (State.launch c) k rfl).resolve_right ?_
    rintro ⟨j, s, -, hs⟩
    exact hend ⟨j, s, hs⟩

/-- Divergence has one trace: the records of the steps. -/
theorem runObserves_divergence_iff {c : Config} {r : Nat → TraceRecord} :
    RunObserves c (.divergence r) ↔ r = recordAt c ∧ ∀ k, ∃ s, runOf c k = .next s ∧ s.run = .running := by
  constructor
  · intro h
    refine ⟨funext fun n => ?_, fun k => ?_⟩
    · obtain ⟨s, hs, hr, htrace⟩ := h (n + 1)
      rw [trace_eq_map_recordAt hs (faultFree_of_running hr)] at htrace
      exact (List.map_inj_left.mp htrace n List.self_mem_range_succ).symm
    · obtain ⟨s, hs, hr, -⟩ := h k
      exact ⟨s, hs, hr⟩
  · rintro ⟨rfl, h⟩ k
    obtain ⟨s, hs, hr⟩ := h k
    exact ⟨s, hs, hr, trace_eq_map_recordAt hs (faultFree_of_running hr)⟩

theorem exists_runObserves (c : Config) : ∃ o, RunObserves c o := by
  obtain ⟨k, s, hs, hr⟩ | hforever := ends_or_runs_forever c
  · obtain ⟨o, ho⟩ := observe_of_ne_running hr
    exact ⟨.ended o, k, s, hs, ho⟩
  · exact ⟨.divergence (recordAt c), runObserves_divergence_iff.mpr ⟨rfl, hforever⟩⟩

/-- A run that has ended does not go on forever. -/
theorem not_ended_and_divergence {c : Config} {o : Observation} {r : Nat → TraceRecord} (hended : RunObserves c (.ended o))
    (hdiv : RunObserves c (.divergence r)) : False := by
  obtain ⟨k, s, hs, ho⟩ := hended
  obtain ⟨t, ht, hr, -⟩ := hdiv k
  cases hs.symm.trans ht
  exact run_of_observe ho hr

/-- A run ends in one state, and divergence has one trace. -/
theorem runObserves_unique {c : Config} {o o' : RunObservation} (h : RunObserves c o) (h' : RunObserves c o') : o' = o := by
  cases o with
  | ended a =>
    cases o' with
    | ended b =>
      obtain ⟨j, s, hs, ha⟩ := h
      obtain ⟨k, t, ht, hb⟩ := h'
      obtain ⟨-, rfl⟩ := runOf_ended_unique hs (run_of_observe ha) ht (run_of_observe hb)
      cases ha.symm.trans hb
      rfl
    | divergence r => exact (not_ended_and_divergence h h').elim
  | divergence r =>
    cases o' with
    | ended b => exact (not_ended_and_divergence h' h).elim
    | divergence r' => rw [(runObserves_divergence_iff.mp h).1, (runObserves_divergence_iff.mp h').1]

/-- A list is the first k values of a function exactly when it has length k and agrees with it at each index. -/
theorem eq_map_range_iff {α : Type} {l : List α} {k : Nat} {r : Nat → α} :
    l = (List.range k).map r ↔ l.length = k ∧ ∀ n, n < k → l[n]? = some (r n) := by
  constructor
  · rintro rfl
    exact ⟨by simp, fun n hn => by simp [hn]⟩
  · rintro ⟨rfl, h⟩
    exact List.ext_getElem (by simp) fun n hn _ => by simpa [hn] using h n hn

/-- Settles O57: existence from `ends_or_runs_forever`, uniqueness from `runObserves_unique`; the three observations are those
of `observe` and the records in order. -/
theorem everyRunHasExactlyOneObservation : Obligations.EveryRunHasExactlyOneObservation := by
  unfold Obligations.EveryRunHasExactlyOneObservation
  intro c
  refine ⟨?one, fun l d => ?halted, fun f p l => ?faulted, fun r => ?divergence⟩
  case one =>
    obtain ⟨o, ho⟩ := exists_runObserves c
    exact ⟨o, ho, fun o' ho' => runObserves_unique ho ho'⟩
  case halted => exact exists₂_congr fun k s => and_congr_right' observe_eq_halted_iff
  case faulted => exact exists₂_congr fun k s => and_congr_right' observe_eq_faulted_iff
  case divergence => exact forall_congr' fun k => exists_congr fun s => and_congr_right' (and_congr_right' eq_map_range_iff)

/-! ## The hangs -/

/-- The state runs, and its step changes nothing but adds a record. -/
def Hangs (s : State) : Prop := s.run = .running ∧ step s = .next (recorded s)

/-- R40's and R100's hangs: BNE with immediate 0 and unequal values, and `jal x0, 0`. -/
theorem hangs_of_fetches {s : State} {w : Word} {i : Instr} (hr : s.run = .running) (hf : Fetches s w)
    (hd : decode s.config.jImmDecode w = .instr i)
    (hi : i = .jal 0 0#32 ∨ ∃ rs1 rs2, i = .bne rs1 rs2 0#32 ∧ s.reg rs1 ≠ s.reg rs2) : Hangs s := by
  obtain rfl | ⟨rs1, rs2, rfl, hne⟩ := hi
  · have heffect : (effect s (.jal 0 0#32)).apply s = s := by
      rw [effect, pcRelative, BitVec.add_zero, Effect.apply, State.setReg_zero]
      rfl
    refine ⟨hr, ?_⟩
    rw [step_of_fetches hr hf hd, heffect, complete_of_faultFree (faultFree_of_running hr)]
  · exact ⟨hr, step_of_bne_self hr hf hd hne⟩

/-- The step does not read the trace, so the state with the record added hangs as well (R37). -/
theorem hangs_recorded {s : State} (h : Hangs s) : Hangs (recorded s) := by
  obtain ⟨hr, hstep⟩ := h
  have hnext := step_withTrace hstep (recorded s).trace
  rw [faultFree_of_running (s := recorded s) hr] at hnext
  exact ⟨hr, hnext⟩

/-- A run that has reached a hang stays in it, at that pc and with those registers. -/
theorem runOf_add_of_hangs {c : Config} {k : Nat} {s : State} (hs : runOf c k = .next s) (h : Hangs s) (j : Nat) :
    ∃ t, runOf c (k + j) = .next t ∧ Hangs t ∧ t.pc = s.pc ∧ t.regs = s.regs := by
  induction j with
  | zero => exact ⟨s, hs, h, rfl, rfl⟩
  | succ j ih =>
    obtain ⟨t, ht, hangs, hpc, hregs⟩ := ih
    exact ⟨recorded t, run_snoc_of_next ht hangs.2, hangs_recorded hangs, hpc, hregs⟩

/-- Settles O58: a run that ended could not go past its end, and one in a hang goes past every number of steps. -/
theorem reachedHangGivesDivergence : Obligations.ReachedHangGivesDivergence := by
  unfold Obligations.ReachedHangGivesDivergence
  intro c k s w i hs hr hf hd hi
  have hstays := runOf_add_of_hangs hs (hangs_of_fetches hr hf hd hi)
  refine ⟨recordAt c, runObserves_divergence_iff.mpr ⟨rfl, ?_⟩, fun n hkn => ?_⟩
  · refine (ends_or_runs_forever c).resolve_left ?_
    rintro ⟨j, u, hu, hend⟩
    obtain ⟨t, ht, -⟩ := hstays (j + 1)
    exact absurd (le_of_runOf_ended hu hend ht) (by omega)
  · obtain ⟨t, ht, -, hpc, hregs⟩ := hstays (n + 1 - k)
    rw [Nat.add_sub_of_le (Nat.le_succ_of_le hkn)] at ht
    rw [recordAt_of_runOf ht, hpc, hregs]

end Sys2Proof.Proofs
end
